-- ==== Sys2Proof/Word.lean ====
section
/-! DEFINITION. The one data type of the SLIP Framer: the 8-bit byte (R12, R14, R43).
Positions, lengths and addresses are natural numbers (R13). -/

namespace Sys2Proof

/-- A byte, bit 7 the most significant (R14). -/
abbrev Byte := BitVec 8

end Sys2Proof
end

