-- ==== Sys2Proof/Config.lean ====
section
/-! DEFINITION. What is fixed for the machine: the protocol constants (R4, R60), the variant (R11), the error causes and
results (R16, R72, R141), the derived widths (R13), the capacity of the reset instance, and the FREE VALUES the spec leaves
unspecified. A free value is an opaque constant: nothing can be proved about which value it is. -/

namespace Sys2Proof

/-- VARIANT (R11): "one of {SingleEnded, DoubleEnded}". -/
inductive Variant where
  | singleEnded
  | doubleEnded
deriving DecidableEq, Repr

/-- The four error causes (R141). -/
inductive Cause where
  | capacity
  | malformedEscape
  | prematureEnd
  | faultReentry
deriving DecidableEq, Repr, Inhabited

/-- The result of an operation (R16). -/
inductive Result where
  /-- `OK`. -/
  | ok
  /-- `DONE(n)`: success with a length. -/
  | done (n : Nat)
  /-- `ERR(cause)`. -/
  | err (c : Cause)
  /-- `VAL(n)`: the answer of LEN. -/
  | val (n : Nat)
deriving DecidableEq, Repr, Inhabited

namespace Config

/-- END, "Frame boundary marker" (R60). -/
abbrev delimiter : Byte := 0xC0#8
/-- ESC, "Introduces an escaped literal" (R60). -/
abbrev escape : Byte := 0xDB#8
/-- ESC_END, "Following ESCAPE, decodes to literal 0xC0" (R60). -/
abbrev escapedDelimiter : Byte := 0xDC#8
/-- ESC_ESC, "Following ESCAPE, decodes to literal 0xDB" (R60). -/
abbrev escapedEscape : Byte := 0xDD#8

/-- The least `w` with `n ≤ 2 ^ w`, that is `ceil(log2 n)` for `n ≥ 1`. -/
def ceilLog2 (n : Nat) : Nat := ((List.range (n + 1)).find? fun w => decide (n ≤ 2 ^ w)).getD 0

/-- `LW`, the width in bits of `wp` and of every length at the ports (R13). No rule depends on it. -/
def lengthWidth (cap : Nat) : Nat := max 1 (ceilLog2 (cap + 1))

/-- `AW`, the width in bits of a buffer address at the ports (R13). No rule depends on it. -/
def addressWidth (cap : Nat) : Nat := max 1 (ceilLog2 (max cap 1))

/-- The capacity of the instance that `State.reset` is. `CAP` is an open parameter (R11) and a field of State, and every
statement holds for every capacity; 8 is the capacity of R80's own example. DESIGN CHOICE, log entry 1. -/
def resetCapacity : Nat := 8

/-- FREE VALUE: what the byte of BUF at an address holds at power-on (R28, U4). Log entry 2. -/
opaque powerOnByte : Nat → Byte

/-- FREE VALUE: the byte that draw number `n` leaves at, or reads from, an address of BUF whose value the spec calls
unspecified (R48, R77, R97, R172). Log entry 3. -/
opaque freeByte : Nat → Nat → Byte

/-- FREE VALUE: the number that draw number `n` gives for an unspecified `wp`, before it is bounded to `0 .. CAP` (R97).
Log entry 4. -/
opaque freeLength : Nat → Nat

/-- FREE VALUE: the result that draw number `n` gives for an EFRAME whose message was not kept stable (R42). Log entry 5. -/
opaque freeResult : Nat → Result

end Config

end Sys2Proof
end

