-- ==== Sys2Proof/Syntax.lean ====
section
/-! DEFINITION. The instructions: one constructor per row of the opcode table. Five operations of the command port (R68,
R69), the three reserved command codes (R70), and the five token rows of the wire format (R62, R65). -/

namespace Sys2Proof

/-- One constructor per row of spec/opcode_table.json. -/
inductive Instr where
  /-- RESET (R82). -/
  | reset
  /-- LEN (R84). -/
  | len
  /-- DBYTE (R110), `b` the received byte. -/
  | dbyte (b : Byte)
  /-- EBYTE (R93), `b` the payload byte. -/
  | ebyte (b : Byte)
  /-- EFRAME (R96), `msg` the message `MSG[0 .. L-1]`, `L` its length (R42). -/
  | eframe (msg : List Byte)
  /-- Reserved command code 5 (R70). -/
  | reserved5
  /-- Reserved command code 6 (R70). -/
  | reserved6
  /-- Reserved command code 7 (R70). -/
  | reserved7
  /-- The end token `0xC0` of the wire format (R62). -/
  | wireEnd
  /-- The escaped delimiter `0xDB 0xDC` (R62). -/
  | wireEscEnd
  /-- The escaped escape `0xDB 0xDD` (R62). -/
  | wireEscEsc
  /-- A literal, an ordinary byte `v` (R62). -/
  | wireLiteral (v : Byte)
  /-- `0xDB` and a byte `x` that is no escape code (R65). -/
  | wireEscInvalid (x : Byte)
deriving DecidableEq, Repr

/-- The name of the row of the opcode table (R78; the reserved and wire rows as the table names them). -/
def Instr.mnemonic : Instr → String
  | .reset => "RESET"
  | .len => "LEN"
  | .dbyte _ => "DBYTE"
  | .ebyte _ => "EBYTE"
  | .eframe _ => "EFRAME"
  | .reserved5 => "RESERVED5"
  | .reserved6 => "RESERVED6"
  | .reserved7 => "RESERVED7"
  | .wireEnd => "WIRE.END"
  | .wireEscEnd => "WIRE.ESC_END"
  | .wireEscEsc => "WIRE.ESC_ESC"
  | .wireLiteral _ => "WIRE.LITERAL"
  | .wireEscInvalid _ => "WIRE.ESC_INVALID"

end Sys2Proof
end

