-- ==== Sys2Proof/WellFormed.lean ====
section
/-! DEFINITION. Which terms of Instr are instructions: the two conditions the spec puts on an operand (R61, R62, R65). -/

namespace Sys2Proof

/-- An ordinary byte: "a byte that is neither END nor ESC" (R18, R61). -/
abbrev ordinary (b : Byte) : Prop := b ≠ Config.delimiter ∧ b ≠ Config.escape

/-- A byte that is one of the two escape codes (R60). -/
abbrev escapeCode (b : Byte) : Prop := b = Config.escapedDelimiter ∨ b = Config.escapedEscape

/-- A literal token carries an ordinary byte (R62); the second byte of an illegal escape is no escape code (R65). Every
other operand is free: any byte for DBYTE and EBYTE (R191), any message for EFRAME (R42). -/
def Instr.wellFormed : Instr → Bool
  | .wireLiteral v => decide (ordinary v)
  | .wireEscInvalid x => decide (¬ escapeCode x)
  | .reset | .len | .dbyte _ | .ebyte _ | .eframe _ => true
  | .reserved5 | .reserved6 | .reserved7 => true
  | .wireEnd | .wireEscEnd | .wireEscEsc => true

end Sys2Proof
end

