-- ==== Sys2Proof/Decode.lean ====
section
/-! DEFINITION. Decoding, total on any command and any bytes, and after it encoding. Two encodings exist: the command port's
11-bit word with its side operands (R69, R71) and the byte tokens of the wire (R62, R64, R65). -/

namespace Sys2Proof

/-- What the host presents at the command port (R69, R75): `cmd_word`, `cmd_len`, and the message memory MSG (R42). -/
structure PortCommand where
  word : BitVec 11
  len : Nat
  msg : List Byte
deriving DecidableEq, Repr

/-- An encoded instruction: a command of the port, or bytes on the wire. -/
inductive Command where
  | port (c : PortCommand)
  | wire (bytes : List Byte)
deriving DecidableEq, Repr

/-- Why a command or a byte sequence is no instruction. -/
inductive DecodeReject where
  /-- EFRAME with `cmd_len = L` and a message memory of fewer than `L` bytes: MSG has `L` bytes (R40, R77). -/
  | messageShorterThanLength
  /-- No byte, so no token. -/
  | noBytes
  /-- The byte `0xDB` alone: the token has two bytes (R64). -/
  | incompleteEscape
  /-- Bytes are left after the first token. -/
  | moreThanOneToken
deriving DecidableEq, Repr

/-- `op = cmd_word[10:8]` (R69). -/
def PortCommand.op (c : PortCommand) : BitVec 3 := c.word.extractLsb' 8 3

/-- `data = cmd_word[7:0]` (R69). -/
def PortCommand.data (c : PortCommand) : Byte := c.word.extractLsb' 0 8

/-- The operation a command names (R69, R70). `data` and `cmd_len` are ignored where the table says so. -/
def decodePort (c : PortCommand) : Except DecodeReject Instr :=
  match c.op.toNat with
  | 0 => .ok .reset
  | 1 => .ok .len
  | 2 => .ok (.dbyte c.data)
  | 3 => .ok (.ebyte c.data)
  | 4 => if c.len ≤ c.msg.length then .ok (.eframe (c.msg.take c.len)) else .error .messageShorterThanLength
  | 5 => .ok .reserved5
  | 6 => .ok .reserved6
  | _ => .ok .reserved7

/-- The first token of a byte sequence read from a token boundary, and the bytes after it (R64): "if the byte is ESC (0xDB)
the token has two bytes and the second selects the literal; otherwise the token has one byte". -/
def decodeToken : List Byte → Except DecodeReject (Instr × List Byte)
  | [] => .error .noBytes
  | b :: rest =>
    if b = Config.delimiter then .ok (.wireEnd, rest)
    else if b = Config.escape then
      match rest with
      | [] => .error .incompleteEscape
      | x :: rest' =>
        if x = Config.escapedDelimiter then .ok (.wireEscEnd, rest')
        else if x = Config.escapedEscape then .ok (.wireEscEsc, rest')
        else .ok (.wireEscInvalid x, rest')
    else .ok (.wireLiteral b, rest)

/-- The one instruction an encoded command is. -/
def decode : Command → Except DecodeReject Instr
  | .port c => decodePort c
  | .wire bytes =>
    match decodeToken bytes with
    | .ok (i, []) => .ok i
    | .ok (_, _ :: _) => .error .moreThanOneToken
    | .error e => .error e

/-- `cmd_word = {op, data}` (R69). -/
def commandWord (op : BitVec 3) (data : Byte) : BitVec 11 := op ++ data

/-- The canonical encoding of an instruction (R62, R69): ignored fields are zero. -/
def encode : Instr → Command
  | .reset => .port ⟨commandWord 0 0, 0, []⟩
  | .len => .port ⟨commandWord 1 0, 0, []⟩
  | .dbyte b => .port ⟨commandWord 2 b, 0, []⟩
  | .ebyte b => .port ⟨commandWord 3 b, 0, []⟩
  | .eframe msg => .port ⟨commandWord 4 0, msg.length, msg⟩
  | .reserved5 => .port ⟨commandWord 5 0, 0, []⟩
  | .reserved6 => .port ⟨commandWord 6 0, 0, []⟩
  | .reserved7 => .port ⟨commandWord 7 0, 0, []⟩
  | .wireEnd => .wire [Config.delimiter]
  | .wireEscEnd => .wire [Config.escape, Config.escapedDelimiter]
  | .wireEscEsc => .wire [Config.escape, Config.escapedEscape]
  | .wireLiteral v => .wire [v]
  | .wireEscInvalid x => .wire [Config.escape, x]

/-- `DFEED` (R79): every byte as a DBYTE, in order. -/
def expandDfeed (bytes : List Byte) : List Instr := bytes.map .dbyte

/-- `EFEED` (R79): every byte as an EBYTE, in order. -/
def expandEfeed (bytes : List Byte) : List Instr := bytes.map .ebyte

/-- One hexadecimal digit. -/
def hexDigit (n : Nat) : String :=
  ["0", "1", "2", "3", "4", "5", "6", "7", "8", "9", "A", "B", "C", "D", "E", "F"].getD n "?"

/-- A byte as R78 writes it, `0xHH`. -/
def byteText (b : Byte) : String := "0x" ++ hexDigit (b.toNat / 16) ++ hexDigit (b.toNat % 16)

/-- The assembler line of an operation (R78); a wire token is written as its mnemonic and its open byte, if it has one. -/
def Instr.text : Instr → String
  | .dbyte b => "DBYTE " ++ byteText b
  | .ebyte b => "EBYTE " ++ byteText b
  | .eframe msg => "EFRAME [" ++ String.intercalate ", " (msg.map byteText) ++ "]"
  | .wireLiteral v => "WIRE.LITERAL " ++ byteText v
  | .wireEscInvalid x => "WIRE.ESC_INVALID " ++ byteText x
  | .reset => Instr.mnemonic .reset
  | .len => Instr.mnemonic .len
  | .reserved5 => Instr.mnemonic .reserved5
  | .reserved6 => Instr.mnemonic .reserved6
  | .reserved7 => Instr.mnemonic .reserved7
  | .wireEnd => Instr.mnemonic .wireEnd
  | .wireEscEnd => Instr.mnemonic .wireEscEnd
  | .wireEscEsc => Instr.mnemonic .wireEscEsc

/-- A word of the opcode table as the encoding it stands for. A row of 8 bits is one byte of the wire. A wider word whose bits
above 10 are zero is a command word (R69) with `cmd_len = 0` and an empty MSG. Any other is two bytes of the wire, bits 15..8
the first, as the table's `0xDBDC` says ("first byte on the wire is 0xDB, second is 0xDC"). Log entry 6. -/
def commandOfTableWord (nbits w : Nat) : Command :=
  if nbits ≤ 8 then .wire [BitVec.ofNat 8 w]
  else if w < 2 ^ 11 then .port ⟨BitVec.ofNat 11 w, 0, []⟩
  else .wire [BitVec.ofNat 8 (w / 256), BitVec.ofNat 8 w]

/-- The instruction the decoder reads from a word of the opcode table. -/
def decodeTableWord (nbits w : Nat) : Option Instr :=
  match decode (commandOfTableWord nbits w) with
  | .ok i => some i
  | .error _ => none

end Sys2Proof
end

