-- ==== Sys2Proof/Machine/State.lean ====
section
/-! DEFINITION. The state of one Framer instance (R20), with the host's pending inputs and the outputs of the last step
beside it, and the reasons a step can stop. -/

namespace Sys2Proof.Machine

/-- The decoder's state-machine state (R21). The encoding value 3 is no state (U8). -/
inductive Mode where
  | accumulating
  | escaped
  | faulted
deriving DecidableEq, Repr

/-- What the host does to the instance (R191), one event at a time (R51). -/
inductive HostEvent where
  /-- A command is accepted at the command port (R76). -/
  | command (c : PortCommand)
  /-- Bytes of the line that the host feeds to the decoder in order, by tokens (R62, R127). -/
  | line (bytes : List Byte)
  /-- `rst` is asserted between operations (R172). -/
  | hardwareReset
  /-- `rst` is asserted while the command is in progress (R172, U9). -/
  | hardwareResetDuring (c : PortCommand)
  /-- The host reads `BUF[a]` between operations (R48, R77). -/
  | readBuf (a : Nat)
  /-- The host writes `v` to `BUF[a]` between operations (R48, R77). -/
  | writeBuf (a : Nat) (v : Byte)
  /-- The host reads `BUF[a]` while the command is in progress (R48, U6). -/
  | readBufDuring (c : PortCommand) (a : Nat)
  /-- The host writes some byte to `BUF[a]` while the command is in progress (R48, U6). -/
  | writeBufDuring (c : PortCommand) (a : Nat)
  /-- The command is run while MSG overlaps BUF or does not stay unchanged (R42, U6). -/
  | unstableMessage (c : PortCommand)
deriving DecidableEq, Repr

/-- BUF as data: (index, byte) pairs, indices strictly rising. An index that is not listed has never been stored to. -/
abbrev Memory := List Host.Cell

/-- The canonical form: strictly rising indices. An unlisted index has no stored value, so no entry can equal it. -/
abbrev Memory.wf (m : Memory) : Prop := m.Pairwise fun x y => x.1 < y.1

/-- Why the machine stops with a fault. The block itself has no such stop: its errors are results (R140). -/
inductive Fault where
  /-- Raised by `append` when asked to store at an index of BUF that does not exist (`wp ≥ CAP`, R46). No state that meets
  the invariant R24 raises it. Safe: the model stops where the spec defines no store. -/
  | storeOutsideBuffer (index : Nat)
deriving DecidableEq, Repr

/-- Why an instruction or an event has no meaning. -/
inductive Refusal where
  /-- Raised by an arm of exec whose instruction has no meaning yet; no arm is left so. Safe. -/
  | notModelled (mnemonic : String)
  /-- Raised by the three reserved command codes: "The model refuses a command word with op >= 5" (R70). Safe. -/
  | reservedCommand (op : Nat)
  /-- Raised by construction and by step: `VARIANT = DoubleEnded` has no behaviour (R11, R80, U3). Safe. -/
  | doubleEndedVariant
  /-- Raised for a command that encodes no instruction. Safe. -/
  | undecodable (why : DecodeReject)
deriving DecidableEq, Repr

/-- One Framer instance (R20): `mode`, `wp`, `buf`, `cap`, `variant` are the spec's whole state. The rest is the model's own:
`host` the events the host issues next (R10, R25), `rsp` and `bufRdata` the outputs of the last step, which no rule reads
(R30), `draws` the number of the next free value. -/
structure State where
  mode : Mode
  wp : Nat
  buf : Memory
  cap : Nat
  variant : Variant
  host : List HostEvent
  rsp : List Result
  bufRdata : Option Byte
  draws : Nat
deriving DecidableEq, Repr

/-- A freshly constructed instance of a capacity (R28, R80). BUF lists nothing: its bytes are the power-on free values. -/
def State.fresh (cap : Nat) : State :=
  { mode := .accumulating, wp := 0, buf := [], cap := cap, variant := .singleEnded,
    host := [], rsp := [], bufRdata := none, draws := 0 }

/-- The machine right after hardware reset at power-on. -/
def State.reset : State := State.fresh Config.resetCapacity

end Sys2Proof.Machine
end

