-- ==== Sys2Proof/Machine/Flags.lean ====
section
/-! DEFINITION. The block has no flags (R20). What it tells the host is an operation's result: here are the result word (R72),
the cause codes (R141), the software view (R74) and the binary value of `mode` (R21). -/

namespace Sys2Proof.Machine

/-- `mode[1:0]` (R21, R29). -/
def Mode.code : Mode → BitVec 2
  | .accumulating => 0
  | .escaped => 1
  | .faulted => 2

/-- `VARIANT` as its bit (R29). -/
def variantCode : Variant → BitVec 1
  | .singleEnded => 0
  | .doubleEnded => 1

/-- `rsp_cause` of a cause (R141). -/
def causeCode : Cause → BitVec 3
  | .capacity => 1
  | .malformedEscape => 2
  | .prematureEnd => 3
  | .faultReentry => 4

/-- The result word (R72). `len` has `LW` bits at the port; here it is the number. -/
structure ResultWord where
  status : BitVec 2
  len : Nat
  cause : BitVec 3
deriving DecidableEq, Repr

/-- How a result is presented (R72). -/
def resultWord : Result → ResultWord
  | .ok => ⟨0, 0, 0⟩
  | .done n => ⟨1, n, 0⟩
  | .err c => ⟨2, 0, causeCode c⟩
  | .val n => ⟨0, n, 0⟩

/-- `rsp_valid` after a step (R75, R76). -/
def rspValid (s : State) : Bool := !s.rsp.isEmpty

/-- The forms a result has in the source's prose (R74). -/
inductive SoftwareView where
  | number (v : Int)
  | success
  | failure
  | noValue
deriving DecidableEq, Repr

/-- The software view of what an operation returned (R74); none where the operation cannot return that result (R73) or the
row is no operation. -/
def softwareView : Instr → Result → Option SoftwareView
  | .dbyte _, .ok => some (.number 0)
  | .dbyte _, .done n => some (.number n)
  | .dbyte _, .err _ => some (.number (-1))
  | .eframe _, .done n => some (.number n)
  | .eframe _, .err .capacity => some (.number 0)
  | .ebyte _, .ok => some .success
  | .ebyte _, .err .capacity => some .failure
  | .len, .val n => some (.number n)
  | .reset, .ok => some .noValue
  | _, _ => none

end Sys2Proof.Machine
end

