-- ==== Sys2Proof/Machine/Operands.lean ====
section
/-! DEFINITION. What is computed from an operand byte: its class (R61), the literal an escape code selects (R67), the stuffing
rule (R91) and the stuffed message and frame (R92). -/

namespace Sys2Proof.Machine

/-- A special byte: END or ESC (R18). -/
def isSpecial (b : Byte) : Bool := decide (b = Config.delimiter ∨ b = Config.escape)

/-- The literal that a byte selects after ESC, if it is an escape code (R60, R67): `0xDC` gives `0xC0`, `0xDD` gives `0xDB`. -/
def unescape (b : Byte) : Option Byte :=
  if b = Config.escapedDelimiter then some Config.delimiter
  else if b = Config.escapedEscape then some Config.escape
  else none

/-- The per-byte stuffing rule (R91). -/
def stuff (b : Byte) : List Byte :=
  if b = Config.escape then [Config.escape, Config.escapedEscape]
  else if b = Config.delimiter then [Config.escape, Config.escapedDelimiter]
  else [b]

/-- "the bytes the current input byte requires" (R91): 2 for a special byte, else 1. -/
def need (b : Byte) : Nat := if b = Config.delimiter ∨ b = Config.escape then 2 else 1

/-- The stuffed bytes of a message (R92). -/
def stuffSeq (m : List Byte) : List Byte := m.flatMap stuff

/-- The frame of a message (R63, R92). -/
def frame (m : List Byte) : List Byte := stuffSeq m ++ [Config.delimiter]

/-- `k`, how many bytes of a message are special (R92). -/
def specials (m : List Byte) : Nat := m.countP isSpecial

end Sys2Proof.Machine
end

