-- ==== Sys2Proof/Machine/Ops.lean ====
section
/-! DEFINITION. The shared operations: the buffer's memory, `do_reset` (R27), the store primitive `append` (R46), delivering a
result, raising an error (R150, R152), leaving bytes unspecified, and construction (R80). -/

namespace Sys2Proof.Machine

/-- The outcome of a part of a step. -/
abbrev Out (α : Type) := Host.Outcome α Fault Refusal

/-- Go on with what a part answered, or stop as it stopped. -/
def andThen {α β : Type} (o : Out α) (f : α → Out β) : Out β :=
  match o with
  | .next a => f a
  | .fault e => .fault e
  | .refused r => .refused r

/-- The byte stored last at an index, if any was. -/
def Memory.stored : Memory → Nat → Option Byte
  | [], _ => none
  | (b, w) :: m, a => if a = b then some w else Memory.stored m a

/-- Reading an index of BUF (R48, R191): "the byte last stored there, or an unspecified byte if none was". -/
def Memory.read (m : Memory) (a : Nat) : Byte := (Memory.stored m a).getD (Config.powerOnByte a)

/-- Storing a byte at an index, keeping the indices strictly rising. -/
def Memory.write : Memory → Nat → Byte → Memory
  | [], a, v => [(a, v)]
  | (b, w) :: m, a, v =>
    if a < b then (a, v) :: (b, w) :: m
    else if a = b then (a, v) :: m
    else (b, w) :: Memory.write m a v

/-- A new operation or host access begins: no result and no read data is presented yet (R30, R76). -/
def State.accept (s : State) : State := { s with rsp := [], bufRdata := none }

/-- `do_reset()` (R27): "mode <- Accumulating; wp <- 0. It changes nothing else." -/
def State.doReset (s : State) : State := { s with mode := .accumulating, wp := 0 }

/-- An operation returns its result (R16, R30). -/
def State.reply (s : State) (r : Result) : State := { s with rsp := s.rsp ++ [r] }

/-- `append(v)` (R46): the store at the old `wp`, then the post-increment; defined only when `wp < CAP`. -/
def append (v : Byte) (s : State) : Out State :=
  if s.wp < s.cap then .next { s with buf := s.buf.write s.wp v, wp := s.wp + 1 }
  else .fault (.storeOutsideBuffer s.wp)

/-- `append` for each byte in order. -/
def appendAll : List Byte → State → Out State
  | [], s => .next s
  | v :: vs, s => andThen (append v s) (appendAll vs)

/-- TAKING AN ERROR in the decoder, `raise DecodeError(cause)` (R150): reset, then the error result. Nothing is saved, and
there is no return from it: the next operation goes on from the reset state (R153). -/
def raiseDecodeError (c : Cause) (s : State) : State := s.doReset.reply (.err c)

/-- An encode failure, `raise EncodeCapacity` (R152): the error result with no reset. -/
def raiseEncodeCapacity (s : State) : State := s.reply (.err .capacity)

/-- Store the free values of one draw at the indices of a list that exist in BUF. -/
def unspecifyBytes (cap draw : Nat) (m : Memory) : List Nat → Memory
  | [] => m
  | a :: rest => unspecifyBytes cap draw (if a < cap then m.write a (Config.freeByte draw a) else m) rest

/-- The bytes of BUF at the listed indices become unspecified: a fresh free value each. -/
def State.unspecify (s : State) (indices : List Nat) : State :=
  { s with buf := unspecifyBytes s.cap s.draws s.buf indices, draws := s.draws + 1 }

/-- What a frame that was not completed leaves (R97, U1, U2): `mode = Accumulating`, every byte of BUF unspecified, `wp`
unspecified within `0 .. CAP`. -/
def State.spoil (s : State) : State :=
  { s.unspecify (List.range s.cap) with
    mode := .accumulating, wp := Config.freeLength s.draws % (s.cap + 1) }

/-- CONSTRUCT (R80): bind a capacity and a variant, and reset; `DoubleEnded` is refused (U3). -/
def construct (cap : Nat) (variant : Variant) : Out State :=
  match variant with
  | .doubleEnded => .refused .doubleEndedVariant
  | .singleEnded => .next (State.fresh cap).doReset

end Sys2Proof.Machine
end

