-- ==== Sys2Proof/Machine/Control.lean ====
section
/-! DEFINITION. The control operations: RESET (R82) and LEN (R84). -/

namespace Sys2Proof.Machine

/-- RESET (R82): `do_reset(); return OK`. -/
def execReset (s : State) : Out State := .next (s.accept.doReset.reply .ok)

/-- LEN (R84): `return VAL(wp)`; nothing else changes. -/
def execLen (s : State) : Out State := .next (s.accept.reply (.val s.wp))

end Sys2Proof.Machine
end

