-- ==== Sys2Proof/Machine/DecodeOps.lean ====
section
/-! DEFINITION. The streaming decoder: DBYTE (R110, its transitions R111 to R121) and the feeding of several bytes (R79, R127). -/

namespace Sys2Proof.Machine

/-- A payload byte is accepted: the capacity test (R117, R120), then `append`, and the mode is `Accumulating` (R116, R118,
R119). -/
def acceptPayload (v : Byte) (s : State) : Out State :=
  if s.wp = s.cap then .next (raiseDecodeError .capacity s)
  else andThen (append v s) fun t => .next ({ t with mode := .accumulating }.reply .ok)

/-- A byte at a token boundary (R112, R113, R115, R116, R117). -/
def dbyteAccumulating (b : Byte) (s : State) : Out State :=
  if b = Config.delimiter then
    if 0 < s.wp then .next (s.doReset.reply (.done s.wp)) else .next (raiseDecodeError .prematureEnd s)
  else if b = Config.escape then .next ({ s with mode := .escaped }.reply .ok)
  else acceptPayload b s

/-- A byte after ESC (R114, R118 to R121); validity of the code is tested before capacity (R149). -/
def dbyteEscaped (b : Byte) (s : State) : Out State :=
  if b = Config.delimiter then .next (raiseDecodeError .prematureEnd s)
  else
    match unescape b with
    | none => .next (raiseDecodeError .malformedEscape s)
    | some lit => acceptPayload lit s

/-- One received byte (R110). In `Faulted` any byte is an error and clears the fault (R111). -/
def dbyte (b : Byte) (s : State) : Out State :=
  match s.mode with
  | .faulted => .next (raiseDecodeError .faultReentry s)
  | .accumulating => dbyteAccumulating b s
  | .escaped => dbyteEscaped b s

/-- The bytes one after another, whatever the earlier results were; the results are listed in order (R79, R127). -/
def dfeed : List Byte → State → Out State
  | [], s => .next s
  | b :: bs, s => andThen (dbyte b s) (dfeed bs)

/-- DBYTE (R110). -/
def execDbyte (b : Byte) (s : State) : Out State := dbyte b s.accept

end Sys2Proof.Machine
end

