-- ==== Sys2Proof/Machine/EncodeOps.lean ====
section
/-! DEFINITION. The encoders: EBYTE (R93, R94) and EFRAME (R96, R97), both over the stuffing rule (R90, R91). -/

namespace Sys2Proof.Machine

/-- EBYTE (R93): the capacity test on the whole token, then the stuffed bytes. `mode` is neither read nor written. On failure
nothing changes (R94). -/
def execEbyte (b : Byte) (s : State) : Out State :=
  if s.cap - s.wp < need b then .next (raiseEncodeCapacity s.accept)
  else andThen (appendAll (stuff b) s.accept) fun t => .next (t.reply .ok)

/-- The loop of EFRAME (R96): the message's tokens in order, or `none` at the first byte whose token does not fit. -/
def encodeBytes : List Byte → State → Out (Option State)
  | [], s => .next (some s)
  | b :: bs, s =>
    if s.cap - s.wp < need b then .next none
    else andThen (appendAll (stuff b) s) (encodeBytes bs)

/-- A failed EFRAME (R97): `ERR(CAPACITY)`, `mode = Accumulating`, `wp` and every byte of BUF unspecified. -/
def encodeFailure (s : State) : State := raiseEncodeCapacity s.spoil

/-- The end of EFRAME (R96): the trailing delimiter and the total length, or failure. `s` is the state before the operation,
`t` the state after the loop. -/
def closeFrame (s : State) : Option State → Out State
  | none => .next (encodeFailure s)
  | some t =>
    if t.cap - t.wp < 1 then .next (encodeFailure s)
    else andThen (append Config.delimiter t) fun u => .next (u.reply (.done u.wp))

/-- EFRAME (R96, R97): reset, the loop, the delimiter. -/
def execEframe (msg : List Byte) (s : State) : Out State :=
  andThen (encodeBytes msg s.accept.doReset) (closeFrame s.accept)

end Sys2Proof.Machine
end

