-- ==== Sys2Proof/Machine/Reserved.lean ====
section
/-! DEFINITION. The reserved command codes: "The model refuses a command word with op >= 5: it gives it no meaning" (R70, U7). -/

namespace Sys2Proof.Machine

/-- Command code 5 (R70). -/
def execReserved5 (_s : State) : Out State := .refused (.reservedCommand 5)

/-- Command code 6 (R70). -/
def execReserved6 (_s : State) : Out State := .refused (.reservedCommand 6)

/-- Command code 7 (R70). -/
def execReserved7 (_s : State) : Out State := .refused (.reservedCommand 7)

end Sys2Proof.Machine
end

