-- ==== Sys2Proof/Machine/WireTokens.lean ====
section
/-! DEFINITION. The token rows of the wire format (R62, R65): a token's bytes arrive at the decoder, each by DBYTE, in the order
shown, as DFEED feeds them (R79). One token is one step: log entry 7. -/

namespace Sys2Proof.Machine

/-- The end token `0xC0`. -/
def execWireEnd (s : State) : Out State := dfeed [Config.delimiter] s.accept

/-- The escaped delimiter `0xDB 0xDC`. -/
def execWireEscEnd (s : State) : Out State := dfeed [Config.escape, Config.escapedDelimiter] s.accept

/-- The escaped escape `0xDB 0xDD`. -/
def execWireEscEsc (s : State) : Out State := dfeed [Config.escape, Config.escapedEscape] s.accept

/-- A literal. -/
def execWireLiteral (v : Byte) (s : State) : Out State := dfeed [v] s.accept

/-- `0xDB` and a byte that is no escape code (R65): the decoder answers an error to it. -/
def execWireEscInvalid (x : Byte) (s : State) : Out State := dfeed [Config.escape, x] s.accept

end Sys2Proof.Machine
end

