-- ==== Sys2Proof/Machine/Dispatch.lean ====
section
/-! DEFINITION. One arm per instruction. -/

namespace Sys2Proof.Machine

/-- What an instruction does. -/
def exec (i : Instr) (s : State) : Host.Outcome State Fault Refusal :=
  match i with
  | .reset => Sys2Proof.Machine.execReset s
  | .len => Sys2Proof.Machine.execLen s
  | .dbyte b => Sys2Proof.Machine.execDbyte b s
  | .ebyte b => Sys2Proof.Machine.execEbyte b s
  | .eframe msg => Sys2Proof.Machine.execEframe msg s
  | .reserved5 => Sys2Proof.Machine.execReserved5 s
  | .reserved6 => Sys2Proof.Machine.execReserved6 s
  | .reserved7 => Sys2Proof.Machine.execReserved7 s
  | .wireEnd => Sys2Proof.Machine.execWireEnd s
  | .wireEscEnd => Sys2Proof.Machine.execWireEscEnd s
  | .wireEscEsc => Sys2Proof.Machine.execWireEscEsc s
  | .wireLiteral v => Sys2Proof.Machine.execWireLiteral v s
  | .wireEscInvalid x => Sys2Proof.Machine.execWireEscInvalid x s

end Sys2Proof.Machine
end

