-- ==== Sys2Proof/Machine/HostSide.lean ====
section
/-! DEFINITION. What the host does to the instance, event by event (R10, R48, R76, R77, R172, R191), and the idle step. -/

namespace Sys2Proof.Machine

/-- A command is accepted: it is decoded and run to completion (R47, R76). -/
def runCommand (c : PortCommand) (s : State) : Out State :=
  match decodePort c with
  | .ok i => exec i s
  | .error e => .refused (.undecodable e)

/-- The bytes left of a line go back to the head of the pending events. -/
def pushLine (rest : List Byte) (host : List HostEvent) : List HostEvent :=
  match rest with
  | [] => host
  | _ :: _ => .line rest :: host

/-- The first token of a line reaches the decoder and the rest stays pending. A last `0xDB` with nothing after it yet is fed
as that byte; a line with no byte is nothing. -/
def runLine (bytes : List Byte) (s : State) : Out State :=
  match decodeToken bytes with
  | .ok (i, rest) => exec i { s with host := pushLine rest s.host }
  | .error .incompleteEscape => exec (.dbyte Config.escape) s
  | .error _ => .next s.accept

/-- Hardware reset between operations (R172): `do_reset()`, no response. -/
def hardwareReset (s : State) : State := s.accept.doReset

/-- The indices of BUF an operation in progress could have written (R172): "for DBYTE BUF[wp], for EBYTE BUF[wp] and
BUF[wp+1], for EFRAME the whole buffer". -/
def abandonedBytes (op : BitVec 3) (s : State) : List Nat :=
  match op.toNat with
  | 2 => [s.wp]
  | 3 => [s.wp, s.wp + 1]
  | 4 => List.range s.cap
  | _ => []

/-- Hardware reset while a command is in progress (R172, U9): it is abandoned, gives no response, and the bytes it could have
written are unspecified. A reserved code is refused as ever (R70). -/
def abandonCommand (c : PortCommand) (s : State) : Out State :=
  if 5 ≤ c.op.toNat then .refused (.reservedCommand c.op.toNat)
  else .next (hardwareReset (s.unspecify (abandonedBytes c.op s)))

/-- The host reads `BUF[a]` (R48); an index `>= CAP` reads an unspecified value (R77, U10). -/
def hostRead (a : Nat) (s : State) : State :=
  if a < s.cap then { s.accept with bufRdata := some (s.buf.read a) }
  else { s.accept with bufRdata := some (Config.freeByte s.draws a), draws := s.draws + 1 }

/-- The host writes `BUF[a]` (R48); an index `>= CAP` writes nothing (R77). -/
def hostWrite (a : Nat) (v : Byte) (s : State) : State :=
  if a < s.cap then { s.accept with buf := s.buf.write a v } else s.accept

/-- The host reads `BUF[a]` during an operation (R48, U6): the operation is as ever, the data unspecified. -/
def runWithRead (c : PortCommand) (a : Nat) (s : State) : Out State :=
  andThen (runCommand c s) fun t =>
    .next { t with bufRdata := some (Config.freeByte t.draws a), draws := t.draws + 1 }

/-- The host writes `BUF[a]` during an operation (R48, U6): the operation is as ever, the final content of the byte
unspecified. -/
def runWithWrite (c : PortCommand) (a : Nat) (s : State) : Out State :=
  andThen (runCommand c s) fun t => .next (t.unspecify [a])

/-- A command run while MSG overlaps BUF or changes (R42, U6): for EFRAME the result, `wp` and BUF are unspecified; every
other operation does not read MSG. -/
def runUnstable (c : PortCommand) (s : State) : Out State :=
  match decodePort c with
  | .ok (.eframe _) => .next (s.accept.spoil.reply (Config.freeResult s.draws))
  | .ok i => exec i s
  | .error e => .refused (.undecodable e)

/-- One event of the host. -/
def serve (e : HostEvent) (s : State) : Out State :=
  match e with
  | .command c => runCommand c s
  | .line bytes => runLine bytes s
  | .hardwareReset => .next (hardwareReset s)
  | .hardwareResetDuring c => abandonCommand c s
  | .readBuf a => .next (hostRead a s)
  | .writeBuf a v => .next (hostWrite a v s)
  | .readBufDuring c a => runWithRead c a s
  | .writeBufDuring c a => runWithWrite c a s
  | .unstableMessage c => runUnstable c s

/-- The next event of the host; with none pending "an idle Framer simply waits for the next command and keeps all its state"
(R163). -/
def takeEvent (s : State) : Out State :=
  match s.host with
  | [] => .next s.accept
  | e :: rest => serve e { s with host := rest }

/-- The event that hands an encoded instruction to the machine. -/
def eventOf : Command → HostEvent
  | .port c => .command c
  | .wire bytes => .line bytes

end Sys2Proof.Machine
end

