-- ==== Sys2Proof/Machine/Step.lean ====
section
/-! DEFINITION. One step: the host's next event. An instance configured `DoubleEnded` has no step (U3). The block fetches
nothing (R25, R53), so an instruction is placed where step finds it by making it the host's next event. -/

namespace Sys2Proof.Machine

/-- One step of the instance. -/
def step (s : State) : Host.Outcome State Fault Refusal :=
  match s.variant with
  | .doubleEnded => .refused .doubleEndedVariant
  | .singleEnded => takeEvent s

/-- The state with the instruction of a table word as the host's next event. -/
def State.withFetchWord (s : State) (nbits w : Nat) : State :=
  { s with host := eventOf (commandOfTableWord nbits w) :: s.host }

end Sys2Proof.Machine
end

