-- ==== Sys2Proof/Safety.lean ====
section
/-! DEFINITION. The terms statements use: the invariant (R24), the run of a list of operations with its results (R127), and the
state an outcome holds. -/

namespace Sys2Proof.Machine

/-- The legal states (R24, R29): `wp` within the buffer, BUF in canonical form and within `0 .. CAP-1`, and the variant with
behaviour. `mode` may be any of the three (R33). -/
abbrev State.Inv (s : State) : Prop :=
  s.wp ≤ s.cap ∧ s.buf.wf ∧ (∀ x ∈ s.buf, x.1 < s.cap) ∧ s.variant = .singleEnded

/-- The state an outcome goes on with, if it does. -/
def nextState {α : Type} : Out α → Option α
  | .next a => some a
  | .fault _ => none
  | .refused _ => none

/-- The operations one after another: the last state and the results in order (R51, R127); none if one of them stops. -/
def transcript : List Instr → State → Option (State × List Result)
  | [], s => some (s, [])
  | i :: is, s =>
    match exec i s with
    | .next t => (transcript is t).map fun p => (p.1, t.rsp ++ p.2)
    | .fault _ => none
    | .refused _ => none

/-- Steps one after another: the last state and the results in order (R51, R76); none if one of them stops. -/
def runResults : Nat → State → Option (State × List Result)
  | 0, s => some (s, [])
  | k + 1, s =>
    match step s with
    | .next t => (runResults k t).map fun p => (p.1, t.rsp ++ p.2)
    | .fault _ => none
    | .refused _ => none

/-- The bytes of BUF at indices `0 .. n-1`, as the host drains them (R49). -/
def drain (s : State) (n : Nat) : List Byte := (List.range n).map s.buf.read

/-- From `s` to `t` the bytes were stored at `a`, `a + 1`, and so on, and every other index of BUF reads as before. -/
def storesAt (s t : State) (a : Nat) (bytes : List Byte) : Prop :=
  (∀ i (h : i < bytes.length), t.buf.read (a + i) = bytes[i]) ∧
  ∀ c, c < a ∨ a + bytes.length ≤ c → t.buf.read c = s.buf.read c

end Sys2Proof.Machine
end

