-- ==== Sys2Proof/Certificates/Slice0/Obligations.lean ====
section
/-! DEFINITION. The statements about the model, in the order of the spec's files: reset and state, encodings, the control
operations, the decoder, the encoders, the wire tokens, the host's side, and whole streams. -/

open Sys2Proof Sys2Proof.Machine

/-! ## Construction, reset and the legal states -/

/-- R80 (its realisation is the spec's decision D2): construction binds the capacity and resets; `DoubleEnded` is refused.
That the model's reset instance has capacity 8 is the model's choice, log entry 1. -/
def Obligations.ConstructionBindsAndResets : Prop :=
  (∀ cap, (∃ s, construct cap .singleEnded = .next s ∧ s.mode = .accumulating ∧ s.wp = 0 ∧ s.cap = cap ∧
      s.variant = .singleEnded ∧ s.buf.wf ∧ ∀ a, s.buf.read a = Config.powerOnByte a) ∧
    construct cap .doubleEnded = .refused .doubleEndedVariant) ∧
  construct Config.resetCapacity .singleEnded = .next State.reset

/-- The invariant of R24 holds at reset, for every capacity. -/
def Obligations.ResetMeetsTheInvariant : Prop :=
  State.reset.Inv ∧ ∀ cap, (State.fresh cap).Inv

/-- R24 over every legal state: whatever the host does next, `wp` stays within the buffer, BUF stays canonical and within
`0 .. CAP-1`, and the variant stays the one with behaviour. That every operation preserves it is marked [derived] in R24. -/
def Obligations.StepKeepsTheInvariant : Prop :=
  ∀ s t, s.Inv → step s = .next t → t.Inv

/-- R24's consequence, marked [derived] there: "the block never stores outside its buffer". The one fault of the model is that
store, so no step from a legal state faults. That such a store is a fault is the model's choice, log entry 12. -/
def Obligations.NoStepStoresOutsideTheBuffer : Prop :=
  ∀ s, s.Inv → ∀ f, step s ≠ .fault f

/-- R33 (marked [derived] there): no rule sets `mode` to `Faulted`. -/
def Obligations.FaultedIsNeverEntered : Prop :=
  ∀ s t, step s = .next t → s.mode ≠ .faulted → t.mode ≠ .faulted

/-- R81: the capacity and the variant are never changed, whatever the host does. -/
def Obligations.NoStepRebindsOrReconfigures : Prop :=
  ∀ s t, step s = .next t → t.cap = s.cap ∧ t.variant = s.variant

/-- The spec's decision D14 (R11, U3): an instance configured `DoubleEnded` has no behaviour at all. -/
def Obligations.DoubleEndedHasNoStep : Prop :=
  ∀ s, s.variant = .doubleEnded → step s = .refused .doubleEndedVariant

/-- The laws of BUF's memory: a store changes the one byte, and keeps the canonical form. -/
def Obligations.StoreChangesOneByteOfBuf : Prop :=
  ∀ (m : Memory) a c v, (m.write a v).read c = (if c = a then v else m.read c) ∧ (m.wf → (m.write a v).wf)

/-- The spec's decision D7 (R13): `LW` bits hold every value of `0 .. CAP` and no fewer do; `AW` bits hold every index. -/
def Obligations.LengthWidthIsLeastThatHoldsEveryLength : Prop :=
  ∀ cap, cap < 2 ^ Config.lengthWidth cap ∧ cap ≤ 2 ^ Config.addressWidth cap ∧
    (∀ w, 1 ≤ w → cap < 2 ^ w → Config.lengthWidth cap ≤ w) ∧
    ∀ w, 1 ≤ w → cap ≤ 2 ^ w → Config.addressWidth cap ≤ w

/-! ## Encodings -/

/-- Every well-formed instruction is what its encoding decodes to, with every operand at every value (R62, R65, R69). -/
def Obligations.DecodeOfEncodeIsTheInstruction : Prop :=
  ∀ i : Instr, i.wellFormed → decode (encode i) = .ok i

/-- A token read from a byte sequence is well-formed, and its encoding is exactly the bytes it took, so the wire's tokens are
uniquely decodable (R62, R64, R65). -/
def Obligations.TokenIsExactlyTheBytesItTook : Prop :=
  ∀ bytes i rest, decodeToken bytes = .ok (i, rest) →
    i.wellFormed ∧ ∃ token, encode i = .wire token ∧ bytes = token ++ rest

/-- The command word of the spec's decision D4 (R69): match and mask select the operation, `data` is read where the row has an
operand and ignored elsewhere, `cmd_len` is read by EFRAME only; and the canonical words. -/
def Obligations.CommandWordSelectsTheOperation : Prop :=
  (∀ c : PortCommand,
    (c.word &&& 0x700#11 = 0x000#11 → decodePort c = .ok .reset) ∧
    (c.word &&& 0x700#11 = 0x100#11 → decodePort c = .ok .len) ∧
    (c.word &&& 0x700#11 = 0x200#11 → decodePort c = .ok (.dbyte (c.word.setWidth 8))) ∧
    (c.word &&& 0x700#11 = 0x300#11 → decodePort c = .ok (.ebyte (c.word.setWidth 8))) ∧
    (c.word &&& 0x700#11 = 0x400#11 → c.len ≤ c.msg.length → decodePort c = .ok (.eframe (c.msg.take c.len))) ∧
    (c.word &&& 0x700#11 = 0x500#11 → decodePort c = .ok .reserved5) ∧
    (c.word &&& 0x700#11 = 0x600#11 → decodePort c = .ok .reserved6) ∧
    (c.word &&& 0x700#11 = 0x700#11 → decodePort c = .ok .reserved7)) ∧
  encode .reset = .port ⟨0x000#11, 0, []⟩ ∧ encode .len = .port ⟨0x100#11, 0, []⟩ ∧
  (∀ b : Byte, encode (.dbyte b) = .port ⟨0x200#11 + b.setWidth 11, 0, []⟩ ∧
    encode (.ebyte b) = .port ⟨0x300#11 + b.setWidth 11, 0, []⟩) ∧
  ∀ msg, encode (.eframe msg) = .port ⟨0x400#11, msg.length, msg⟩

/-- Words written out from R69's table and R62's tokens decode to the instructions they stand for. -/
def Obligations.WrittenOutWordsDecode : Prop :=
  decode (.port ⟨0b000_00000000#11, 0, []⟩) = .ok .reset ∧
  decode (.port ⟨0b001_00000000#11, 0, []⟩) = .ok .len ∧
  decode (.port ⟨0b010_01000001#11, 0, []⟩) = .ok (.dbyte 0x41#8) ∧
  decode (.port ⟨0b011_11000000#11, 0, []⟩) = .ok (.ebyte 0xC0#8) ∧
  decode (.port ⟨0b100_00000000#11, 2, [0x01#8, 0xC0#8]⟩) = .ok (.eframe [0x01#8, 0xC0#8]) ∧
  decode (.port ⟨0b101_00000000#11, 0, []⟩) = .ok .reserved5 ∧
  decode (.wire [0b1100_0000#8]) = .ok .wireEnd ∧
  decode (.wire [0b1101_1011#8, 0b1101_1100#8]) = .ok .wireEscEnd ∧
  decode (.wire [0b1101_1011#8, 0b1101_1101#8]) = .ok .wireEscEsc ∧
  decode (.wire [0b1101_1100#8]) = .ok (.wireLiteral 0xDC#8) ∧
  decode (.wire [0b1101_1011#8, 0b1101_1011#8]) = .ok (.wireEscInvalid 0xDB#8)

/-- The spec's decision D4 (R70): "The model refuses a command word with op >= 5", and these instructions stop in every state. -/
def Obligations.ReservedCommandsAreRefused : Prop :=
  (∀ s, exec .reserved5 s = .refused (.reservedCommand 5) ∧ exec .reserved6 s = .refused (.reservedCommand 6) ∧
    exec .reserved7 s = .refused (.reservedCommand 7)) ∧
  ∀ s (c : PortCommand) rest, s.variant = .singleEnded → s.host = .command c :: rest → 5 ≤ (c.word >>> 8).toNat →
    step s = .refused (.reservedCommand (c.word >>> 8).toNat)

/-- A step runs the decoded instruction: of an accepted command, of the first token of a line (the rest of the line stays
pending), and of a word of the opcode table. How events reach the machine is the model's choice, log entries 7 and 8. -/
def Obligations.StepRunsTheDecodedInstruction : Prop :=
  (∀ s c i rest, s.variant = .singleEnded → s.host = .command c :: rest → decodePort c = .ok i →
    step s = exec i { s with host := rest }) ∧
  (∀ s bytes i left rest, s.variant = .singleEnded → s.host = .line bytes :: rest → decodeToken bytes = .ok (i, left) →
    step s = exec i { s with host := pushLine left rest }) ∧
  ∀ s nbits w i, s.variant = .singleEnded → decodeTableWord nbits w = some i → step (s.withFetchWord nbits w) = exec i s

/-- The result word of the spec's decisions D5 and D6 (R72, R141): the status, length and cause of every result; status 3 and
causes 5 to 7 are never produced. -/
def Obligations.ResultWordOfEveryResult : Prop :=
  resultWord .ok = ⟨0, 0, 0⟩ ∧ (∀ n, resultWord (.done n) = ⟨1, n, 0⟩ ∧ resultWord (.val n) = ⟨0, n, 0⟩) ∧
  resultWord (.err .capacity) = ⟨2, 0, 1⟩ ∧ resultWord (.err .malformedEscape) = ⟨2, 0, 2⟩ ∧
  resultWord (.err .prematureEnd) = ⟨2, 0, 3⟩ ∧ resultWord (.err .faultReentry) = ⟨2, 0, 4⟩ ∧
  ∀ r, (resultWord r).status ≠ 3 ∧ (resultWord r).cause.toNat ≤ 4

/-! ## Control operations -/

/-- RESET (R82) in every state; that BUF keeps its bytes is the spec's decision D9, on which U13 warns a host not to rely. -/
def Obligations.ResetOperationResetsInEveryState : Prop :=
  ∀ s, exec .reset s = .next { s with mode := .accumulating, wp := 0, rsp := [.ok], bufRdata := none } ∧
    ∀ t, exec .reset s = .next t → exec .reset t = .next t

/-- LEN (R84) answers `wp` and changes no state; its purity is the spec's decision D24. -/
def Obligations.LenAnswersWpAndChangesNothing : Prop :=
  ∀ s, exec .len s = .next { s with rsp := [.val s.wp], bufRdata := none }

/-- What LEN returns at each moment of R85 (marked [derived] there), row by row: 0 after construction, hardware reset and
RESET; after DBYTE returned OK, the old `wp` if the byte was the ESC that entered `Escaped` and one more if it was stored; 0
after a completed or failed decode; the stuffed length after EBYTE; the frame length after EFRAME. The row of a failed EBYTE
holds in states with `wp > CAP` too, which no run reaches; there it is the model's choice, log entry 13. -/
def Obligations.LengthAtEachMoment : Prop :=
  (∀ cap t u, construct cap .singleEnded = .next t → exec .len t = .next u → u.rsp = [.val 0]) ∧
  ∀ s t u, exec .len t = .next u →
    (∀ rest, s.host = .hardwareReset :: rest → step s = .next t → u.rsp = [.val 0]) ∧
    (∀ c rest, s.host = .hardwareResetDuring c :: rest → step s = .next t → u.rsp = [.val 0]) ∧
    (exec .reset s = .next t → u.rsp = [.val 0]) ∧
    (∀ b, exec (.dbyte b) s = .next t → t.rsp = [.ok] →
      u.rsp = if s.mode = .accumulating ∧ b = 0xDB#8 then [.val s.wp] else [.val (s.wp + 1)]) ∧
    (∀ b r, exec (.dbyte b) s = .next t → t.rsp = [r] → r ≠ .ok → u.rsp = [.val 0]) ∧
    (∀ b, exec (.ebyte b) s = .next t → t.rsp = [.ok] → u.rsp = [.val (s.wp + need b)]) ∧
    (∀ b, exec (.ebyte b) s = .next t → t.rsp = [.err .capacity] → u.rsp = [.val s.wp]) ∧
    (∀ msg n, exec (.eframe msg) s = .next t → t.rsp = [.done n] → u.rsp = [.val n]) ∧
    ∀ msg, exec (.eframe msg) s = .next t → t.rsp = [.err .capacity] → ∃ n, n ≤ s.cap ∧ u.rsp = [.val n]

/-! ## The decoder -/

/-- R111 (the cause for the delimiter is the spec's decision D6): any byte in `Faulted`. -/
def Obligations.DbyteInFaultedClearsTheFault : Prop :=
  ∀ b s, s.mode = .faulted → exec (.dbyte b) s =
    .next { s with mode := .accumulating, wp := 0, rsp := [.err .faultReentry], bufRdata := none }

/-- R112: a delimiter after at least one payload byte completes the frame and resets. -/
def Obligations.DbyteDelimiterCompletesTheFrame : Prop :=
  ∀ s, s.mode = .accumulating → 0 < s.wp → exec (.dbyte 0xC0#8) s =
    .next { s with mode := .accumulating, wp := 0, rsp := [.done s.wp], bufRdata := none }

/-- R113: a delimiter with nothing accumulated is an error. -/
def Obligations.DbyteDelimiterOnEmptyFrameIsAnError : Prop :=
  ∀ s, s.mode = .accumulating → s.wp = 0 → exec (.dbyte 0xC0#8) s =
    .next { s with mode := .accumulating, wp := 0, rsp := [.err .prematureEnd], bufRdata := none }

/-- R114: a delimiter after ESC is an error whatever was accumulated. -/
def Obligations.DbyteDelimiterAfterEscapeIsAnError : Prop :=
  ∀ s, s.mode = .escaped → exec (.dbyte 0xC0#8) s =
    .next { s with mode := .accumulating, wp := 0, rsp := [.err .prematureEnd], bufRdata := none }

/-- R115: ESC at a token boundary, with no capacity test. -/
def Obligations.DbyteEscapeEntersEscaped : Prop :=
  ∀ s, s.mode = .accumulating → exec (.dbyte 0xDB#8) s = .next { s with mode := .escaped, rsp := [.ok], bufRdata := none }

/-- R116: an ordinary byte is stored unchanged at `wp`; 0xDC and 0xDD are ordinary here. -/
def Obligations.DbyteOrdinaryByteIsStored : Prop :=
  ∀ b s, s.mode = .accumulating → b ≠ 0xC0#8 → b ≠ 0xDB#8 → s.wp < s.cap →
    ∃ t, exec (.dbyte b) s = .next t ∧ storesAt s t s.wp [b] ∧
      t = { s with buf := t.buf, wp := s.wp + 1, rsp := [.ok], bufRdata := none }

/-- R117: an ordinary byte with the buffer full is an overflow and nothing is stored; "a buffer that is exactly full is not yet
an error": a delimiter there still completes the frame. -/
def Obligations.DbyteOrdinaryByteOverflows : Prop :=
  ∀ s, s.mode = .accumulating → s.wp = s.cap →
    (∀ b, b ≠ 0xC0#8 → b ≠ 0xDB#8 → exec (.dbyte b) s =
      .next { s with mode := .accumulating, wp := 0, rsp := [.err .capacity], bufRdata := none }) ∧
    (0 < s.cap → exec (.dbyte 0xC0#8) s =
      .next { s with mode := .accumulating, wp := 0, rsp := [.done s.cap], bufRdata := none })

/-- R118 and R119: an escape code after ESC stores its literal, 0xC0 for ESC_END and 0xDB for ESC_ESC. -/
def Obligations.DbyteEscapeCodeStoresItsLiteral : Prop :=
  ∀ b lit s, s.mode = .escaped → b = 0xDC#8 ∧ lit = 0xC0#8 ∨ b = 0xDD#8 ∧ lit = 0xDB#8 → s.wp < s.cap →
    ∃ t, exec (.dbyte b) s = .next t ∧ storesAt s t s.wp [lit] ∧
      t = { s with mode := .accumulating, buf := t.buf, wp := s.wp + 1, rsp := [.ok], bufRdata := none }

/-- R120 (the spec's decision D10): an escape code with the buffer full is an overflow; nothing is stored. -/
def Obligations.DbyteEscapedLiteralOverflows : Prop :=
  ∀ b s, s.mode = .escaped → b = 0xDC#8 ∨ b = 0xDD#8 → s.wp = s.cap → exec (.dbyte b) s =
    .next { s with mode := .accumulating, wp := 0, rsp := [.err .capacity], bufRdata := none }

/-- R121: any other byte after ESC is malformed, whatever `wp` is; the byte is lost. -/
def Obligations.DbyteMalformedEscape : Prop :=
  ∀ b s, s.mode = .escaped → b ≠ 0xC0#8 → b ≠ 0xDC#8 → b ≠ 0xDD#8 → exec (.dbyte b) s =
    .next { s with mode := .accumulating, wp := 0, rsp := [.err .malformedEscape], bufRdata := none }

/-- R122 to R125 (marked [derived] there): DBYTE is total on legal states, gives one result, is back at the reset `mode` and
`wp` whenever that is not OK, enters `Escaped` on ESC at a token boundary only, and never leaves `Escaped` or `Faulted`
standing. -/
def Obligations.DbyteIsTotalAndResetsUnlessOk : Prop :=
  ∀ b s, s.wp ≤ s.cap → ∃ t r, exec (.dbyte b) s = .next t ∧ t.rsp = [r] ∧
    (r ≠ .ok → t.mode = .accumulating ∧ t.wp = 0 ∧ t.buf = s.buf) ∧
    (t.mode = .escaped ↔ s.mode = .accumulating ∧ b = 0xDB#8) ∧ t.mode ≠ .faulted ∧ t.wp ≤ s.cap

/-- R150: whatever error a DBYTE reports, the decoder is reset, nothing is saved or stored, and the configuration stays. -/
def Obligations.DecodeErrorEntryResets : Prop :=
  ∀ b s t c, exec (.dbyte b) s = .next t → t.rsp = [.err c] →
    t = { s with mode := .accumulating, wp := 0, rsp := [.err c], bufRdata := none }

/-- R145 and R146, and R143 and R147's conditions: each cause is reported exactly when its condition holds, so an invalid code
outranks a full buffer and a delimiter outranks both (R149). -/
def Obligations.EachDecodeCauseExactlyWhen : Prop :=
  ∀ b s t, s.wp ≤ s.cap → exec (.dbyte b) s = .next t →
    (t.rsp = [.err .malformedEscape] ↔ s.mode = .escaped ∧ b ≠ 0xC0#8 ∧ b ≠ 0xDC#8 ∧ b ≠ 0xDD#8) ∧
    (t.rsp = [.err .prematureEnd] ↔ b = 0xC0#8 ∧ (s.mode = .accumulating ∧ s.wp = 0 ∨ s.mode = .escaped)) ∧
    (t.rsp = [.err .capacity] ↔ s.wp = s.cap ∧
      (s.mode = .accumulating ∧ b ≠ 0xC0#8 ∧ b ≠ 0xDB#8 ∨ s.mode = .escaped ∧ (b = 0xDC#8 ∨ b = 0xDD#8))) ∧
    (t.rsp = [.err .faultReentry] ↔ s.mode = .faulted) ∧
    ∀ c, t.rsp = [.err c] → t.mode = .accumulating ∧ t.wp = 0

/-- R127 (marked [derived] there): "a stream of q consecutive 0xC0 bytes after a reset gives q results ERR(PREMATURE_END)". -/
def Obligations.ConsecutiveDelimitersAreErrors : Prop :=
  ∀ q s, s.mode = .accumulating → s.wp = 0 →
    ∃ t, transcript (expandDfeed (List.replicate q 0xC0#8)) s = some (t, List.replicate q (.err .prematureEnd)) ∧
      t.mode = .accumulating ∧ t.wp = 0 ∧ t.buf = s.buf

/-! ## The encoders -/

/-- R91: the per-byte stuffing rule and what a byte needs. -/
def Obligations.StuffingRule : Prop :=
  stuff 0xDB#8 = [0xDB#8, 0xDD#8] ∧ stuff 0xC0#8 = [0xDB#8, 0xDC#8] ∧
  (∀ b, b ≠ 0xDB#8 → b ≠ 0xC0#8 → stuff b = [b]) ∧
  ∀ b, need b = (stuff b).length ∧ need b = if b = 0xDB#8 ∨ b = 0xC0#8 then 2 else 1

/-- R92: the stuffed sequence, the frame, and their lengths with their bounds. -/
def Obligations.FrameLengthIsExact : Prop :=
  ∀ m, stuffSeq m = (m.map stuff).flatten ∧ frame m = stuffSeq m ++ [0xC0#8] ∧
    specials m = m.countP (fun b => b == 0xC0#8 || b == 0xDB#8) ∧
    (stuffSeq m).length = m.length + specials m ∧ (frame m).length = m.length + specials m + 1 ∧
    m.length + 1 ≤ (frame m).length ∧ (frame m).length ≤ 2 * m.length + 1 ∧
    ((∀ b ∈ m, b = 0xC0#8 ∨ b = 0xDB#8) → (frame m).length = 2 * m.length + 1) ∧ frame [] = [0xC0#8]

/-- R100 (marked [derived] there): no 0xC0 in stuffed output, every 0xDB followed by an escape code, and two messages never
share a stuffed form. -/
def Obligations.StuffedOutputLaws : Prop :=
  (∀ m, 0xC0#8 ∉ stuffSeq m) ∧
  (∀ m i, (stuffSeq m)[i]? = some 0xDB#8 → (stuffSeq m)[i + 1]? = some 0xDC#8 ∨ (stuffSeq m)[i + 1]? = some 0xDD#8) ∧
  ∀ m m', stuffSeq m = stuffSeq m' → m = m'

/-- EBYTE (R93) when the token fits: the stuffed bytes at `wp`, `wp` advanced, everything else as before. That `mode` is not
touched is the spec's decision D13. -/
def Obligations.EbyteStoresTheStuffedToken : Prop :=
  ∀ b s, s.wp + need b ≤ s.cap →
    ∃ t, exec (.ebyte b) s = .next t ∧ storesAt s t s.wp (stuff b) ∧
      t = { s with buf := t.buf, wp := s.wp + need b, rsp := [.ok], bufRdata := none }

/-- EBYTE when the token does not fit (R94, the spec's decision D11): an error and nothing changes. The subtraction is of natural
numbers, so states with `wp > CAP` are included, which no run reaches; what EBYTE does there is the model's choice, log
entry 13. -/
def Obligations.EbyteFailureChangesNothing : Prop :=
  ∀ b s, s.cap - s.wp < need b → exec (.ebyte b) s = .next { s with rsp := [.err .capacity], bufRdata := none }

/-- R95 (marked [derived] there): the bytes that successive EBYTEs produce are the stuffed message. -/
def Obligations.StreamedEncodingIsTheStuffedMessage : Prop :=
  ∀ m s, s.wp + (stuffSeq m).length ≤ s.cap →
    ∃ t, transcript (expandEfeed m) s = some (t, List.replicate m.length .ok) ∧ storesAt s t s.wp (stuffSeq m) ∧
      t.wp = s.wp + m.length + specials m ∧ t.mode = s.mode

/-- EFRAME (R96) when the frame fits, from any state: the frame from index 0 and its length; the rest as before. That this is
exactly when it succeeds is marked [derived] in R96. -/
def Obligations.EframeWritesTheFrame : Prop :=
  ∀ msg s, msg.length + specials msg + 1 ≤ s.cap →
    ∃ t, exec (.eframe msg) s = .next t ∧ storesAt s t 0 (frame msg) ∧
      t = { s with mode := .accumulating, buf := t.buf, wp := msg.length + specials msg + 1,
                   rsp := [.done (msg.length + specials msg + 1)], bufRdata := none }

/-- EFRAME when the frame does not fit (R97, the spec's decision D12): the error, `mode` as reset, `wp` some value within
`0 .. CAP`, every byte of BUF a free value of the model (log entries 3 and 4), and nothing else changes. -/
def Obligations.EframeFailureLeavesBufUnspecified : Prop :=
  ∀ msg s, s.cap < msg.length + specials msg + 1 →
    ∃ t, exec (.eframe msg) s = .next t ∧ t.wp ≤ s.cap ∧
      (∀ a, t.buf.read a = if a < s.cap then Config.freeByte s.draws a else s.buf.read a) ∧
      t = { s with mode := .accumulating, buf := t.buf, wp := t.wp, rsp := [.err .capacity], bufRdata := none,
                   draws := s.draws + 1 }

/-- R98 (marked [derived] there): EFRAME is RESET, an EBYTE for each byte of the message, and one more store of 0xC0; and it
fails exactly when one of those EBYTEs fails or the buffer is full after them. -/
def Obligations.EframeIsResetEbytesAndDelimiter : Prop :=
  ∀ msg s,
    (msg.length + specials msg + 1 ≤ s.cap → ∃ u v t,
      transcript (.reset :: expandEfeed msg) s = some (u, List.replicate (msg.length + 1) .ok) ∧
      append 0xC0#8 u = .next v ∧ exec (.eframe msg) s = .next t ∧
      t = { v with rsp := [.done v.wp], bufRdata := none }) ∧
    ((∃ t, exec (.eframe msg) s = .next t ∧ t.rsp = [.err .capacity]) ↔
      ∃ u rs, transcript (.reset :: expandEfeed msg) s = some (u, rs) ∧ (.err .capacity ∈ rs ∨ u.wp = u.cap))

/-- R73 (marked [derived] there): the results each operation can return, and no others. -/
def Obligations.ResultsOfEachOperation : Prop :=
  ∀ s t, s.wp ≤ s.cap →
    (exec .reset s = .next t → t.rsp = [.ok]) ∧
    (exec .len s = .next t → ∃ n, n ≤ s.cap ∧ t.rsp = [.val n]) ∧
    (∀ b, exec (.dbyte b) s = .next t →
      t.rsp = [.ok] ∨ (∃ n, 1 ≤ n ∧ n ≤ s.cap ∧ t.rsp = [.done n]) ∨ ∃ c, t.rsp = [.err c]) ∧
    (∀ b, exec (.ebyte b) s = .next t → t.rsp = [.ok] ∨ t.rsp = [.err .capacity]) ∧
    ∀ msg, exec (.eframe msg) s = .next t →
      (∃ n, 1 ≤ n ∧ n ≤ s.cap ∧ t.rsp = [.done n]) ∨ t.rsp = [.err .capacity]

/-- The software view (R74; the value -1 is the spec's decision D5): for DBYTE positive on completion, negative on an error and
zero when the frame is incomplete; for EFRAME zero exactly on failure. -/
def Obligations.SoftwareViewSigns : Prop :=
  ∀ s t r, s.wp ≤ s.cap → t.rsp = [r] →
    (∀ b, exec (.dbyte b) s = .next t → ∃ v, softwareView (.dbyte b) r = some (.number v) ∧
      (0 < v ↔ ∃ n, r = .done n) ∧ (v < 0 ↔ ∃ c, r = .err c) ∧ (v = 0 ↔ r = .ok)) ∧
    ∀ msg, exec (.eframe msg) s = .next t → ∃ v, softwareView (.eframe msg) r = some (.number v) ∧ 0 ≤ v ∧
      (v = 0 ↔ r = .err .capacity)

/-! ## Every operation -/

/-- R189: every operation and every wire token ends with its results, one for a command and one for each byte of a token. -/
def Obligations.EveryOperationEndsWithItsResults : Prop :=
  ∀ i s, s.wp ≤ s.cap → i ≠ .reserved5 → i ≠ .reserved6 → i ≠ .reserved7 →
    ∃ t, exec i s = .next t ∧ t.rsp.length = match encode i with | .port _ => 1 | .wire bytes => bytes.length

/-- R26 (marked [derived] there), the access matrix: what each operation leaves alone. No operation writes CAP, VARIANT or the
host's pending events; only EFRAME draws a free value. -/
def Obligations.OperationsTouchOnlyTheirState : Prop :=
  ∀ i s t, exec i s = .next t →
    t.cap = s.cap ∧ t.variant = s.variant ∧ t.host = s.host ∧
    match i with
    | .reset => t.buf = s.buf ∧ t.draws = s.draws
    | .len => t.mode = s.mode ∧ t.wp = s.wp ∧ t.buf = s.buf ∧ t.draws = s.draws
    | .dbyte _ => (∀ a, a ≠ s.wp → t.buf.read a = s.buf.read a) ∧ t.draws = s.draws
    | .ebyte _ => t.mode = s.mode ∧ (∀ a, a ≠ s.wp → a ≠ s.wp + 1 → t.buf.read a = s.buf.read a) ∧ t.draws = s.draws
    | .eframe _ => t.mode = .accumulating ∧ ∀ a, s.cap ≤ a → t.buf.read a = s.buf.read a
    | .wireEnd => t.buf = s.buf ∧ t.draws = s.draws
    | .wireLiteral _ => (∀ a, a ≠ s.wp → t.buf.read a = s.buf.read a) ∧ t.draws = s.draws
    | .wireEscEnd | .wireEscEsc => (∀ a, a ≠ s.wp → a ≠ 0 → t.buf.read a = s.buf.read a) ∧ t.draws = s.draws
    | .wireEscInvalid _ => (∀ a, a ≠ s.wp → a ≠ 0 → t.buf.read a = s.buf.read a) ∧ t.draws = s.draws
    | .reserved5 | .reserved6 | .reserved7 => False

/-- R45 (marked [derived] there): what an operation does does not depend on what BUF holds. -/
def Obligations.BufContentsDoNotMatter : Prop :=
  ∀ i s t m, exec i s = .next t → ∃ m', exec i { s with buf := m } = .next { t with buf := m' }

/-- R30: the outputs of the last step are not state: no step reads them. That State holds them is the model's choice, log
entry 9. -/
def Obligations.OutputsAreNeverRead : Prop :=
  ∀ s rsp rdata, step { s with rsp := rsp, bufRdata := rdata } = step s

/-! ## The tokens of the wire -/

/-- R62 and R65 at a token boundary: what each token does to the decoder, with payload accumulated and without, with room in
BUF and with BUF full (an escape token there is the spec's decision D10). That a token is one step is the model's choice, log
entry 7. -/
def Obligations.WireTokensAtATokenBoundary : Prop :=
  ∀ s, s.mode = .accumulating →
    (0 < s.wp → exec .wireEnd s =
      .next { s with mode := .accumulating, wp := 0, rsp := [.done s.wp], bufRdata := none }) ∧
    (s.wp = 0 → exec .wireEnd s =
      .next { s with mode := .accumulating, wp := 0, rsp := [.err .prematureEnd], bufRdata := none }) ∧
    (s.wp < s.cap → ∃ t, exec .wireEscEnd s = .next t ∧ storesAt s t s.wp [0xC0#8] ∧
      t = { s with buf := t.buf, wp := s.wp + 1, rsp := [.ok, .ok], bufRdata := none }) ∧
    (s.wp < s.cap → ∃ t, exec .wireEscEsc s = .next t ∧ storesAt s t s.wp [0xDB#8] ∧
      t = { s with buf := t.buf, wp := s.wp + 1, rsp := [.ok, .ok], bufRdata := none }) ∧
    (∀ v, v ≠ 0xC0#8 → v ≠ 0xDB#8 → s.wp < s.cap → ∃ t, exec (.wireLiteral v) s = .next t ∧ storesAt s t s.wp [v] ∧
      t = { s with buf := t.buf, wp := s.wp + 1, rsp := [.ok], bufRdata := none }) ∧
    (s.wp = s.cap → exec .wireEscEnd s =
        .next { s with mode := .accumulating, wp := 0, rsp := [.ok, .err .capacity], bufRdata := none } ∧
      exec .wireEscEsc s =
        .next { s with mode := .accumulating, wp := 0, rsp := [.ok, .err .capacity], bufRdata := none } ∧
      ∀ v, v ≠ 0xC0#8 → v ≠ 0xDB#8 → exec (.wireLiteral v) s =
        .next { s with mode := .accumulating, wp := 0, rsp := [.err .capacity], bufRdata := none }) ∧
    (exec (.wireEscInvalid 0xC0#8) s =
      .next { s with mode := .accumulating, wp := 0, rsp := [.ok, .err .prematureEnd], bufRdata := none }) ∧
    ∀ x, x ≠ 0xC0#8 → x ≠ 0xDC#8 → x ≠ 0xDD#8 → exec (.wireEscInvalid x) s =
      .next { s with mode := .accumulating, wp := 0, rsp := [.ok, .err .malformedEscape], bufRdata := none }

/-- In every legal state a wire token does what the DBYTEs of its bytes do, and lists their results (R79, R127). That a token
is one step is the model's choice, log entry 7. -/
def Obligations.WireTokenIsTheDbytesOfItsBytes : Prop :=
  ∀ i bytes s, encode i = .wire bytes → s.wp ≤ s.cap →
    ∃ t rs, transcript (expandDfeed bytes) s = some (t, rs) ∧ exec i s = .next { t with rsp := rs }

/-! ## The host -/

/-- R163: "an idle Framer simply waits for the next command and keeps all its state". -/
def Obligations.IdleFramerKeepsItsState : Prop :=
  ∀ s, s.variant = .singleEnded → s.host = [] → step s = .next { s with rsp := [], bufRdata := none }

/-- R48 and the spec's decisions D3 and D19 (R77): the host reads and writes BUF between operations; outside `0 .. CAP-1` it
reads a free value of the model (log entry 3) and writes nothing. -/
def Obligations.HostReadsAndWritesBuf : Prop :=
  ∀ s a rest, s.variant = .singleEnded →
    (s.host = .readBuf a :: rest →
      (a < s.cap → step s = .next { s with host := rest, rsp := [], bufRdata := some (s.buf.read a) }) ∧
      (s.cap ≤ a → step s = .next { s with host := rest, rsp := [], bufRdata := some (Config.freeByte s.draws a),
                                           draws := s.draws + 1 })) ∧
    ∀ v, s.host = .writeBuf a v :: rest →
      (a < s.cap → ∃ t, step s = .next t ∧ storesAt s t a [v] ∧
        t = { s with host := rest, buf := t.buf, rsp := [], bufRdata := none }) ∧
      (s.cap ≤ a → step s = .next { s with host := rest, rsp := [], bufRdata := none })

/-- Hardware reset, the spec's decision D20 (R172): between operations it resets and gives no response; during an operation it
also leaves the bytes that operation could have written unspecified (free values, log entry 3). -/
def Obligations.HardwareResetAbandonsTheOperation : Prop :=
  ∀ s rest, s.variant = .singleEnded →
    (s.host = .hardwareReset :: rest →
      step s = .next { s with mode := .accumulating, wp := 0, host := rest, rsp := [], bufRdata := none }) ∧
    ∀ c : PortCommand, s.host = .hardwareResetDuring c :: rest → c.op.toNat < 5 →
      ∃ t, step s = .next t ∧
        t = { s with mode := .accumulating, wp := 0, buf := t.buf, host := rest, rsp := [], bufRdata := none,
                     draws := s.draws + 1 } ∧
        ∀ a, t.buf.read a =
          if a < s.cap ∧ (c.op = 2 ∧ a = s.wp ∨ c.op = 3 ∧ (a = s.wp ∨ a = s.wp + 1) ∨ c.op = 4) then
            Config.freeByte s.draws a
          else s.buf.read a

/-- Host access during an operation and an unstable message, the spec's decisions D16 and D19 (R42, R48, U6): the operation
itself is as ever, the data read and the byte written are free values (log entry 3); an EFRAME whose message did not stay gives
a free result (log entry 5) and leaves `wp` and BUF unspecified. -/
def Obligations.HostAccessDuringAnOperation : Prop :=
  ∀ s c i a rest, s.variant = .singleEnded → decodePort c = .ok i →
    (∀ t, s.host = .readBufDuring c a :: rest → exec i { s with host := rest } = .next t →
      step s = .next { t with bufRdata := some (Config.freeByte t.draws a), draws := t.draws + 1 }) ∧
    (∀ t, s.host = .writeBufDuring c a :: rest → exec i { s with host := rest } = .next t →
      ∃ u, step s = .next u ∧ u = { t with buf := u.buf, draws := t.draws + 1 } ∧
        ∀ x, u.buf.read x = if x = a ∧ a < s.cap then Config.freeByte t.draws a else t.buf.read x) ∧
    (s.host = .unstableMessage c :: rest → (∀ msg, i ≠ .eframe msg) → step s = exec i { s with host := rest }) ∧
    ∀ msg, s.host = .unstableMessage c :: rest → i = .eframe msg →
      ∃ u, step s = .next u ∧ u.wp ≤ s.cap ∧
        (∀ x, u.buf.read x = if x < s.cap then Config.freeByte s.draws x else s.buf.read x) ∧
        u = { s with mode := .accumulating, wp := u.wp, buf := u.buf, host := rest,
                     rsp := [Config.freeResult s.draws], bufRdata := none, draws := s.draws + 1 }

/-! ## Whole streams -/

/-- R126, the round trip (marked [derived] there), for every non-empty message within both capacities: the encoder's frame, fed
to a decoder at its reset `mode` and `wp`, is delivered as the message. -/
def Obligations.RoundTripOfEveryNonEmptyMessage : Prop :=
  ∀ m e d, m ≠ [] → m.length + specials m + 1 ≤ e.cap → m.length ≤ d.cap → d.mode = .accumulating → d.wp = 0 →
    ∃ e' d', exec (.eframe m) e = .next e' ∧ e'.rsp = [.done (m.length + specials m + 1)] ∧
      transcript (expandDfeed (drain e' (m.length + specials m + 1))) d =
        some (d', List.replicate (m.length + specials m) .ok ++ [.done m.length]) ∧
      drain d' m.length = m ∧ d'.mode = .accumulating ∧ d'.wp = 0

/-- R113 and R96 (the resolution C3): the empty message has a frame and no decoder accepts it. -/
def Obligations.EmptyMessageDoesNotRoundTrip : Prop :=
  ∀ e d, 1 ≤ e.cap → d.mode = .accumulating → d.wp = 0 →
    ∃ e' d', exec (.eframe []) e = .next e' ∧ e'.rsp = [.done 1] ∧ drain e' 1 = [0xC0#8] ∧
      transcript (expandDfeed (drain e' 1)) d = some (d', [.err .prematureEnd])

/-- R126's overlong case (marked [derived] there): a message longer than the decoder's capacity is an error at its payload byte
number `CAP + 1`, and OK before it. -/
def Obligations.OverlongFrameIsACapacityError : Prop :=
  ∀ m d, d.cap < m.length → d.mode = .accumulating → d.wp = 0 →
    ∃ d' rs, transcript (expandDfeed (frame m)) d = some (d', rs) ∧
      rs.take ((stuffSeq (m.take (d.cap + 1))).length - 1) =
        List.replicate ((stuffSeq (m.take (d.cap + 1))).length - 1) .ok ∧
      rs[(stuffSeq (m.take (d.cap + 1))).length - 1]? = some (.err .capacity)

/-- R126's converse (marked [derived] there): whatever a decoder accepts from its reset `mode` and `wp` with OK, …, OK,
DONE(n) is the frame of the message it leaves in BUF. -/
def Obligations.DecoderAcceptsOnlyFrames : Prop :=
  ∀ r d d' k n, d.mode = .accumulating → d.wp = 0 →
    transcript (expandDfeed r) d = some (d', List.replicate k .ok ++ [.done n]) → r = frame (drain d' n)

/-- R128 (marked [derived] there): from any legal state, whatever was damaged before, a frame that starts after the next end
token is decoded correctly. -/
def Obligations.DecoderResynchronisesAtTheNextDelimiter : Prop :=
  ∀ m s, s.wp ≤ s.cap → m ≠ [] → m.length ≤ s.cap →
    ∃ t r, transcript (expandDfeed (0xC0#8 :: frame m)) s =
        some (t, r :: (List.replicate (m.length + specials m) .ok ++ [.done m.length])) ∧
      drain t m.length = m ∧ t.mode = .accumulating ∧ t.wp = 0

/-- A line fed token by token gives the results and the state of its bytes fed by DBYTE one after another (R127), wherever the
line begins. That the line is taken by tokens is the model's choice, log entries 7 and 8. -/
def Obligations.LineByTokensIsLineByBytes : Prop :=
  ∀ bytes s, s.Inv → s.host = [] →
    ∃ k t u rs, runResults k { s with host := [.line bytes] } = some (t, rs) ∧
      transcript (expandDfeed bytes) s = some (u, rs) ∧ t.accept = u.accept
end

