-- ==== Sys2Proof/Laws/State.lean ====
section
/-! SUPPORT. What each named update of State does to each field, by definition, so that no proof unfolds a record update. -/

namespace Sys2Proof.Machine

@[simp] theorem State.accept_mode (s : State) : s.accept.mode = s.mode := rfl
@[simp] theorem State.accept_wp (s : State) : s.accept.wp = s.wp := rfl
@[simp] theorem State.accept_buf (s : State) : s.accept.buf = s.buf := rfl
@[simp] theorem State.accept_cap (s : State) : s.accept.cap = s.cap := rfl
@[simp] theorem State.accept_variant (s : State) : s.accept.variant = s.variant := rfl
@[simp] theorem State.accept_host (s : State) : s.accept.host = s.host := rfl
@[simp] theorem State.accept_rsp (s : State) : s.accept.rsp = [] := rfl
@[simp] theorem State.accept_bufRdata (s : State) : s.accept.bufRdata = none := rfl
@[simp] theorem State.accept_draws (s : State) : s.accept.draws = s.draws := rfl

@[simp] theorem State.doReset_mode (s : State) : s.doReset.mode = .accumulating := rfl
@[simp] theorem State.doReset_wp (s : State) : s.doReset.wp = 0 := rfl
@[simp] theorem State.doReset_buf (s : State) : s.doReset.buf = s.buf := rfl
@[simp] theorem State.doReset_cap (s : State) : s.doReset.cap = s.cap := rfl
@[simp] theorem State.doReset_variant (s : State) : s.doReset.variant = s.variant := rfl
@[simp] theorem State.doReset_host (s : State) : s.doReset.host = s.host := rfl
@[simp] theorem State.doReset_rsp (s : State) : s.doReset.rsp = s.rsp := rfl
@[simp] theorem State.doReset_bufRdata (s : State) : s.doReset.bufRdata = s.bufRdata := rfl
@[simp] theorem State.doReset_draws (s : State) : s.doReset.draws = s.draws := rfl

@[simp] theorem State.reply_mode (s : State) (r : Result) : (s.reply r).mode = s.mode := rfl
@[simp] theorem State.reply_wp (s : State) (r : Result) : (s.reply r).wp = s.wp := rfl
@[simp] theorem State.reply_buf (s : State) (r : Result) : (s.reply r).buf = s.buf := rfl
@[simp] theorem State.reply_cap (s : State) (r : Result) : (s.reply r).cap = s.cap := rfl
@[simp] theorem State.reply_variant (s : State) (r : Result) : (s.reply r).variant = s.variant := rfl
@[simp] theorem State.reply_host (s : State) (r : Result) : (s.reply r).host = s.host := rfl
@[simp] theorem State.reply_rsp (s : State) (r : Result) : (s.reply r).rsp = s.rsp ++ [r] := rfl
@[simp] theorem State.reply_bufRdata (s : State) (r : Result) : (s.reply r).bufRdata = s.bufRdata := rfl
@[simp] theorem State.reply_draws (s : State) (r : Result) : (s.reply r).draws = s.draws := rfl

@[simp] theorem State.unspecify_mode (s : State) (l : List Nat) : (s.unspecify l).mode = s.mode := rfl
@[simp] theorem State.unspecify_wp (s : State) (l : List Nat) : (s.unspecify l).wp = s.wp := rfl
@[simp] theorem State.unspecify_buf (s : State) (l : List Nat) : (s.unspecify l).buf = unspecifyBytes s.cap s.draws s.buf l := rfl
@[simp] theorem State.unspecify_cap (s : State) (l : List Nat) : (s.unspecify l).cap = s.cap := rfl
@[simp] theorem State.unspecify_variant (s : State) (l : List Nat) : (s.unspecify l).variant = s.variant := rfl
@[simp] theorem State.unspecify_host (s : State) (l : List Nat) : (s.unspecify l).host = s.host := rfl
@[simp] theorem State.unspecify_rsp (s : State) (l : List Nat) : (s.unspecify l).rsp = s.rsp := rfl
@[simp] theorem State.unspecify_bufRdata (s : State) (l : List Nat) : (s.unspecify l).bufRdata = s.bufRdata := rfl
@[simp] theorem State.unspecify_draws (s : State) (l : List Nat) : (s.unspecify l).draws = s.draws + 1 := rfl

@[simp] theorem State.spoil_mode (s : State) : s.spoil.mode = .accumulating := rfl
@[simp] theorem State.spoil_wp (s : State) : s.spoil.wp = Config.freeLength s.draws % (s.cap + 1) := rfl
@[simp] theorem State.spoil_buf (s : State) : s.spoil.buf = unspecifyBytes s.cap s.draws s.buf (List.range s.cap) := rfl
@[simp] theorem State.spoil_cap (s : State) : s.spoil.cap = s.cap := rfl
@[simp] theorem State.spoil_variant (s : State) : s.spoil.variant = s.variant := rfl
@[simp] theorem State.spoil_host (s : State) : s.spoil.host = s.host := rfl
@[simp] theorem State.spoil_rsp (s : State) : s.spoil.rsp = s.rsp := rfl
@[simp] theorem State.spoil_bufRdata (s : State) : s.spoil.bufRdata = s.bufRdata := rfl
@[simp] theorem State.spoil_draws (s : State) : s.spoil.draws = s.draws + 1 := rfl

@[simp] theorem State.withFetchWord_mode (s : State) (n w : Nat) : (s.withFetchWord n w).mode = s.mode := rfl
@[simp] theorem State.withFetchWord_wp (s : State) (n w : Nat) : (s.withFetchWord n w).wp = s.wp := rfl
@[simp] theorem State.withFetchWord_buf (s : State) (n w : Nat) : (s.withFetchWord n w).buf = s.buf := rfl
@[simp] theorem State.withFetchWord_cap (s : State) (n w : Nat) : (s.withFetchWord n w).cap = s.cap := rfl
@[simp] theorem State.withFetchWord_variant (s : State) (n w : Nat) : (s.withFetchWord n w).variant = s.variant := rfl
@[simp] theorem State.withFetchWord_host (s : State) (n w : Nat) : (s.withFetchWord n w).host = eventOf (commandOfTableWord n w) :: s.host := rfl
@[simp] theorem State.withFetchWord_rsp (s : State) (n w : Nat) : (s.withFetchWord n w).rsp = s.rsp := rfl
@[simp] theorem State.withFetchWord_bufRdata (s : State) (n w : Nat) : (s.withFetchWord n w).bufRdata = s.bufRdata := rfl
@[simp] theorem State.withFetchWord_draws (s : State) (n w : Nat) : (s.withFetchWord n w).draws = s.draws := rfl

/-- Beginning twice is beginning once. -/
@[simp] theorem State.accept_accept (s : State) : s.accept.accept = s.accept := rfl

/-- "do_reset() is idempotent" (R27). -/
@[simp] theorem State.doReset_doReset (s : State) : s.doReset.doReset = s.doReset := rfl

end Sys2Proof.Machine
end

