-- ==== Sys2Proof/Laws/Memory.lean ====
section
/-! SUPPORT. The laws of BUF's memory: a read after a write, the canonical form, and the bytes left unspecified. -/

namespace Sys2Proof.Machine

theorem Memory.stored_write_same (m : Memory) (a : Nat) (v : Byte) : (m.write a v).stored a = some v := by
  induction m with
  | nil => simp [Memory.write, Memory.stored]
  | cons x m ih =>
    obtain ⟨b, w⟩ := x
    simp only [Memory.write]
    split
    · simp [Memory.stored]
    · split
      · simp [Memory.stored]
      · rename_i h
        simp [Memory.stored, h, ih]

theorem Memory.stored_write_other (m : Memory) {a c : Nat} (v : Byte) (h : c ≠ a) :
    (m.write a v).stored c = m.stored c := by
  induction m with
  | nil => simp [Memory.write, Memory.stored, h]
  | cons x m ih =>
    obtain ⟨b, w⟩ := x
    simp only [Memory.write]
    split
    · simp [Memory.stored, h]
    · split
      · rename_i hab
        subst hab
        simp [Memory.stored, h]
      · simp only [Memory.stored]
        split <;> simp_all

@[simp] theorem Memory.read_write_same (m : Memory) (a : Nat) (v : Byte) : (m.write a v).read a = v := by
  simp [Memory.read, Memory.stored_write_same]

theorem Memory.read_write_other (m : Memory) {a c : Nat} (v : Byte) (h : c ≠ a) :
    (m.write a v).read c = m.read c := by
  simp [Memory.read, Memory.stored_write_other m v h]

theorem Memory.read_write (m : Memory) (a c : Nat) (v : Byte) :
    (m.write a v).read c = if c = a then v else m.read c := by
  split
  · next h => simp [h]
  · next h => exact m.read_write_other v h

/-- The indices after a write are the old ones and the written one. -/
theorem Memory.mem_write {m : Memory} {a : Nat} {v : Byte} {x : Host.Cell} (h : x ∈ m.write a v) :
    x.1 = a ∨ x ∈ m := by
  induction m with
  | nil => simp_all [Memory.write]
  | cons y m ih =>
    obtain ⟨b, w⟩ := y
    simp only [Memory.write] at h
    split at h
    · rcases List.mem_cons.mp h with rfl | h
      · exact .inl rfl
      · exact .inr h
    · split at h
      · rcases List.mem_cons.mp h with rfl | h
        · exact .inl rfl
        · exact .inr (List.mem_cons_of_mem _ h)
      · rcases List.mem_cons.mp h with rfl | h
        · exact .inr (List.mem_cons_self ..)
        · exact (ih h).imp id (List.mem_cons_of_mem _)

/-- A write keeps the canonical form. -/
theorem Memory.write_wf {m : Memory} (h : m.wf) (a : Nat) (v : Byte) : (m.write a v).wf := by
  induction m with
  | nil => simp [Memory.wf, Memory.write]
  | cons y m ih =>
    obtain ⟨b, w⟩ := y
    obtain ⟨hb, hm⟩ := List.pairwise_cons.mp h
    simp only [Memory.write]
    split
    · next hab =>
      refine List.pairwise_cons.mpr ⟨fun x hx => ?_, h⟩
      rcases List.mem_cons.mp hx with rfl | hx
      · exact hab
      · exact Nat.lt_trans hab (hb x hx)
    · split
      · next hab =>
        subst hab
        exact List.pairwise_cons.mpr ⟨hb, hm⟩
      · refine List.pairwise_cons.mpr ⟨fun x hx => ?_, ih hm⟩
        rcases Memory.mem_write hx with hx | hx
        · show b < x.1
          omega
        · exact hb x hx

/-- A write below a bound keeps every index below it. -/
theorem Memory.write_below {m : Memory} {cap a : Nat} (h : ∀ x ∈ m, x.1 < cap) (ha : a < cap) (v : Byte) :
    ∀ x ∈ m.write a v, x.1 < cap := by
  intro x hx
  rcases Memory.mem_write hx with hx | hx
  · omega
  · exact h x hx

theorem unspecifyBytes_wf {m : Memory} (h : m.wf) (cap draw : Nat) (l : List Nat) :
    (unspecifyBytes cap draw m l).wf := by
  induction l generalizing m with
  | nil => exact h
  | cons a l ih =>
    simp only [unspecifyBytes]
    split
    · exact ih (Memory.write_wf h _ _)
    · exact ih h

theorem unspecifyBytes_below {m : Memory} {cap : Nat} (h : ∀ x ∈ m, x.1 < cap) (draw : Nat) (l : List Nat) :
    ∀ x ∈ unspecifyBytes cap draw m l, x.1 < cap := by
  induction l generalizing m with
  | nil => exact h
  | cons a l ih =>
    simp only [unspecifyBytes]
    split
    · next ha => exact ih (Memory.write_below h ha _)
    · exact ih h

/-- What an index reads as after bytes were left unspecified: the draw's free value at the listed indices of BUF, as before
anywhere else. -/
theorem unspecifyBytes_read (cap draw : Nat) (m : Memory) (l : List Nat) (a : Nat) :
    (unspecifyBytes cap draw m l).read a = if a ∈ l ∧ a < cap then Config.freeByte draw a else m.read a := by
  induction l generalizing m with
  | nil => simp [unspecifyBytes]
  | cons b l ih =>
    rw [unspecifyBytes, ih]
    by_cases hl : a ∈ l ∧ a < cap
    · simp [hl.1, hl.2]
    · rw [if_neg hl]
      by_cases hb : b < cap
      · rw [if_pos hb, Memory.read_write]
        by_cases hab : a = b
        · simp [hab, hb]
        · simp only [hab, if_false, List.mem_cons, false_or, hl]
      · rw [if_neg hb]
        by_cases hab : a = b
        · simp [hab, hb]
        · simp only [hab, if_false, List.mem_cons, false_or, hl]

/-- The reset memory is canonical. -/
theorem reset_memory_wf : State.reset.buf.wf := by decide

end Sys2Proof.Machine
end

