-- ==== Sys2Proof/Laws/Ops.lean ====
section
/-! SUPPORT. What each shared operation can do, said once. -/

namespace Sys2Proof.Machine

@[simp] theorem andThen_next {α β : Type} (a : α) (f : α → Out β) : andThen (.next a) f = f a := rfl
@[simp] theorem andThen_fault {α β : Type} (e : Fault) (f : α → Out β) : andThen (.fault e) f = .fault e := rfl
@[simp] theorem andThen_refused {α β : Type} (r : Refusal) (f : α → Out β) : andThen (.refused r) f = .refused r := rfl

/-- A sequence goes on exactly if both its parts do. -/
theorem andThen_eq_next {α β : Type} {o : Out α} {f : α → Out β} {b : β} :
    andThen o f = .next b ↔ ∃ a, o = .next a ∧ f a = .next b := by
  cases o <;> simp

/-- The state after a store: the byte at the old `wp`, then the post-increment (R46). -/
def afterStore (v : Byte) (s : State) : State := { s with buf := s.buf.write s.wp v, wp := s.wp + 1 }

@[simp] theorem afterStore_mode (v : Byte) (s : State) : (afterStore v s).mode = s.mode := rfl
@[simp] theorem afterStore_wp (v : Byte) (s : State) : (afterStore v s).wp = s.wp + 1 := rfl
@[simp] theorem afterStore_buf (v : Byte) (s : State) : (afterStore v s).buf = s.buf.write s.wp v := rfl
@[simp] theorem afterStore_cap (v : Byte) (s : State) : (afterStore v s).cap = s.cap := rfl
@[simp] theorem afterStore_variant (v : Byte) (s : State) : (afterStore v s).variant = s.variant := rfl
@[simp] theorem afterStore_host (v : Byte) (s : State) : (afterStore v s).host = s.host := rfl
@[simp] theorem afterStore_rsp (v : Byte) (s : State) : (afterStore v s).rsp = s.rsp := rfl
@[simp] theorem afterStore_draws (v : Byte) (s : State) : (afterStore v s).draws = s.draws := rfl

theorem append_of_lt {s : State} (h : s.wp < s.cap) (v : Byte) : append v s = .next (afterStore v s) := by
  simp [append, h, afterStore]

theorem append_of_not_lt {s : State} (h : ¬ s.wp < s.cap) (v : Byte) :
    append v s = .fault (.storeOutsideBuffer s.wp) := by
  simp [append, h]

/-- `append` goes on only inside the buffer, and then to the state after the store. -/
theorem append_eq_next {v : Byte} {s t : State} : append v s = .next t ↔ s.wp < s.cap ∧ t = afterStore v s := by
  by_cases h : s.wp < s.cap
  · simp [append_of_lt h, h, eq_comm]
  · simp [append_of_not_lt h, h]

/-- The state after several stores. -/
def afterStores : List Byte → State → State
  | [], s => s
  | v :: vs, s => afterStores vs (afterStore v s)

@[simp] theorem afterStores_nil (s : State) : afterStores [] s = s := rfl
@[simp] theorem afterStores_cons (v : Byte) (vs : List Byte) (s : State) :
    afterStores (v :: vs) s = afterStores vs (afterStore v s) := rfl

theorem afterStores_append (us vs : List Byte) (s : State) :
    afterStores (us ++ vs) s = afterStores vs (afterStores us s) := by
  induction us generalizing s with
  | nil => rfl
  | cons u us ih => exact ih _

@[simp] theorem afterStores_wp (vs : List Byte) (s : State) : (afterStores vs s).wp = s.wp + vs.length := by
  induction vs generalizing s with
  | nil => rfl
  | cons v vs ih => simp only [afterStores_cons, ih, afterStore_wp, List.length_cons]; omega

/-- Stores change `buf` and `wp` only. -/
theorem afterStores_fields (vs : List Byte) (s : State) :
    afterStores vs s = { s with buf := (afterStores vs s).buf, wp := s.wp + vs.length } := by
  induction vs generalizing s with
  | nil => rfl
  | cons v vs ih =>
    rw [afterStores_cons, ih]
    simp only [afterStore, List.length_cons, State.mk.injEq, true_and, and_true]
    omega

@[simp] theorem afterStores_cap (vs : List Byte) (s : State) : (afterStores vs s).cap = s.cap := by
  rw [afterStores_fields]
@[simp] theorem afterStores_mode (vs : List Byte) (s : State) : (afterStores vs s).mode = s.mode := by
  rw [afterStores_fields]
@[simp] theorem afterStores_variant (vs : List Byte) (s : State) : (afterStores vs s).variant = s.variant := by
  rw [afterStores_fields]
@[simp] theorem afterStores_host (vs : List Byte) (s : State) : (afterStores vs s).host = s.host := by
  rw [afterStores_fields]
@[simp] theorem afterStores_rsp (vs : List Byte) (s : State) : (afterStores vs s).rsp = s.rsp := by
  rw [afterStores_fields]
@[simp] theorem afterStores_draws (vs : List Byte) (s : State) : (afterStores vs s).draws = s.draws := by
  rw [afterStores_fields]

/-- An index below the first store reads as before. -/
theorem afterStores_read_below (vs : List Byte) (s : State) {a : Nat} (h : a < s.wp) :
    (afterStores vs s).buf.read a = s.buf.read a := by
  induction vs generalizing s with
  | nil => rfl
  | cons v vs ih =>
    rw [afterStores_cons, ih _ (by simp; omega), afterStore_buf, Memory.read_write_other _ _ (by omega)]

/-- An index above the last store reads as before. -/
theorem afterStores_read_above (vs : List Byte) (s : State) {a : Nat} (h : s.wp + vs.length ≤ a) :
    (afterStores vs s).buf.read a = s.buf.read a := by
  induction vs generalizing s with
  | nil => rfl
  | cons v vs ih =>
    simp only [List.length_cons] at h
    rw [afterStores_cons, ih _ (by simp; omega), afterStore_buf, Memory.read_write_other _ _ (by omega)]

/-- The stored bytes lie in ascending order from the old `wp` (R43). -/
theorem afterStores_read (vs : List Byte) (s : State) {i : Nat} (h : i < vs.length) :
    (afterStores vs s).buf.read (s.wp + i) = vs[i] := by
  induction vs generalizing s i with
  | nil => simp at h
  | cons v vs ih =>
    cases i with
    | zero => rw [afterStores_cons, afterStores_read_below _ _ (by simp)]; simp
    | succ i =>
      have := ih (afterStore v s) (i := i) (by simpa using h)
      simpa [Nat.add_assoc, Nat.add_comm 1 i] using this

/-- Several stores go on exactly if all of them lie inside the buffer. -/
theorem appendAll_of_fits {vs : List Byte} {s : State} (h : s.wp + vs.length ≤ s.cap) :
    appendAll vs s = .next (afterStores vs s) := by
  induction vs generalizing s with
  | nil => rfl
  | cons v vs ih =>
    simp only [List.length_cons] at h
    rw [appendAll, append_of_lt (by omega), andThen_next, ih (by simp; omega), afterStores_cons]

/-- Stores keep the canonical form and stay inside the buffer. -/
theorem afterStores_memory {vs : List Byte} {s : State} (h : s.wp + vs.length ≤ s.cap) (hw : s.buf.wf)
    (hb : ∀ x ∈ s.buf, x.1 < s.cap) :
    (afterStores vs s).buf.wf ∧ ∀ x ∈ (afterStores vs s).buf, x.1 < s.cap := by
  induction vs generalizing s with
  | nil => exact ⟨hw, hb⟩
  | cons v vs ih =>
    simp only [List.length_cons] at h
    exact ih (s := afterStore v s) (by simp; omega) (Memory.write_wf hw _ _)
      (Memory.write_below hb (by omega) _)

end Sys2Proof.Machine
end

