-- ==== Sys2Proof/Laws/Decoder.lean ====
section
/-! SUPPORT. What DBYTE can do, said once (R122), and what feeding several bytes does. -/

namespace Sys2Proof.Machine

/-- An escape code selects the literal R67 gives it. -/
theorem unescape_eq_some {b v : Byte} : unescape b = some v ↔
    (b = Config.escapedDelimiter ∧ v = Config.delimiter) ∨ (b = Config.escapedEscape ∧ v = Config.escape) := by
  unfold unescape
  split
  · next h => subst h; simp [eq_comm, show Config.escapedDelimiter ≠ Config.escapedEscape by decide]
  · split
    · next h => subst h; simp [eq_comm, show Config.escapedDelimiter ≠ Config.escapedEscape by decide]
    · simp_all

/-- Every byte that is no escape code selects nothing. -/
theorem unescape_eq_none {b : Byte} : unescape b = none ↔ ¬ escapeCode b := by
  unfold unescape escapeCode
  split
  · simp_all
  · split <;> simp_all

/-- The state after a payload byte was accepted. -/
def afterPayload (v : Byte) (s : State) : State := { afterStore v s with mode := .accumulating }.reply .ok

@[simp] theorem afterPayload_mode (v : Byte) (s : State) : (afterPayload v s).mode = .accumulating := rfl
@[simp] theorem afterPayload_wp (v : Byte) (s : State) : (afterPayload v s).wp = s.wp + 1 := rfl
@[simp] theorem afterPayload_buf (v : Byte) (s : State) : (afterPayload v s).buf = s.buf.write s.wp v := rfl
@[simp] theorem afterPayload_cap (v : Byte) (s : State) : (afterPayload v s).cap = s.cap := rfl
@[simp] theorem afterPayload_variant (v : Byte) (s : State) : (afterPayload v s).variant = s.variant := rfl
@[simp] theorem afterPayload_host (v : Byte) (s : State) : (afterPayload v s).host = s.host := rfl
@[simp] theorem afterPayload_rsp (v : Byte) (s : State) : (afterPayload v s).rsp = s.rsp ++ [.ok] := rfl
@[simp] theorem afterPayload_draws (v : Byte) (s : State) : (afterPayload v s).draws = s.draws := rfl

@[simp] theorem raiseDecodeError_mode (c : Cause) (s : State) : (raiseDecodeError c s).mode = .accumulating := rfl
@[simp] theorem raiseDecodeError_wp (c : Cause) (s : State) : (raiseDecodeError c s).wp = 0 := rfl
@[simp] theorem raiseDecodeError_buf (c : Cause) (s : State) : (raiseDecodeError c s).buf = s.buf := rfl
@[simp] theorem raiseDecodeError_cap (c : Cause) (s : State) : (raiseDecodeError c s).cap = s.cap := rfl
@[simp] theorem raiseDecodeError_variant (c : Cause) (s : State) : (raiseDecodeError c s).variant = s.variant := rfl
@[simp] theorem raiseDecodeError_host (c : Cause) (s : State) : (raiseDecodeError c s).host = s.host := rfl
@[simp] theorem raiseDecodeError_rsp (c : Cause) (s : State) : (raiseDecodeError c s).rsp = s.rsp ++ [.err c] := rfl
@[simp] theorem raiseDecodeError_draws (c : Cause) (s : State) : (raiseDecodeError c s).draws = s.draws := rfl

theorem acceptPayload_of_lt {s : State} (h : s.wp < s.cap) (v : Byte) :
    acceptPayload v s = .next (afterPayload v s) := by
  rw [acceptPayload, if_neg (by omega), append_of_lt h, andThen_next, afterPayload]

theorem acceptPayload_of_full {s : State} (h : s.wp = s.cap) (v : Byte) :
    acceptPayload v s = .next (raiseDecodeError .capacity s) := by
  rw [acceptPayload, if_pos h]

/-- When DBYTE raises each cause (R143, R145, R146, R147). -/
def raises (b : Byte) (s : State) : Cause → Prop
  | .faultReentry => s.mode = .faulted
  | .prematureEnd => b = Config.delimiter ∧ (s.mode = .accumulating ∧ s.wp = 0 ∨ s.mode = .escaped)
  | .malformedEscape => s.mode = .escaped ∧ b ≠ Config.delimiter ∧ ¬ escapeCode b
  | .capacity => s.wp = s.cap ∧ (s.mode = .accumulating ∧ ordinary b ∨ s.mode = .escaped ∧ escapeCode b)

/-- When DBYTE stores a literal (R116, R118, R119). -/
def storesLiteral (b : Byte) (s : State) (v : Byte) : Prop :=
  s.wp < s.cap ∧ (s.mode = .accumulating ∧ ordinary b ∧ v = b ∨ s.mode = .escaped ∧ unescape b = some v)

/-- The four things a DBYTE can do: raise an error, complete a frame, note an ESC, or store a payload byte. -/
def DbyteCase (b : Byte) (s t : State) : Prop :=
  (∃ c, raises b s c ∧ t = raiseDecodeError c s) ∨
  (s.mode = .accumulating ∧ b = Config.delimiter ∧ 0 < s.wp ∧ t = s.doReset.reply (.done s.wp)) ∨
  (s.mode = .accumulating ∧ b = Config.escape ∧ t = { s with mode := .escaped }.reply .ok) ∨
  (∃ v, storesLiteral b s v ∧ t = afterPayload v s)

/-- In every legal state a DBYTE goes on, in one of the four ways. -/
theorem dbyte_total {b : Byte} {s : State} (h : s.wp ≤ s.cap) : ∃ t, dbyte b s = .next t ∧ DbyteCase b s t := by
  rcases hm : s.mode with _ | _ | _
  · simp only [dbyte, hm, dbyteAccumulating]
    by_cases hd : b = Config.delimiter
    · rw [if_pos hd]
      by_cases hw : 0 < s.wp
      · rw [if_pos hw]; exact ⟨_, rfl, .inr (.inl ⟨hm, hd, hw, rfl⟩)⟩
      · rw [if_neg hw]
        exact ⟨_, rfl, .inl ⟨.prematureEnd, ⟨hd, .inl ⟨hm, by omega⟩⟩, rfl⟩⟩
    · rw [if_neg hd]
      by_cases he : b = Config.escape
      · rw [if_pos he]; exact ⟨_, rfl, .inr (.inr (.inl ⟨hm, he, rfl⟩))⟩
      · rw [if_neg he]
        rcases Nat.lt_or_eq_of_le h with h | h
        · exact ⟨_, acceptPayload_of_lt h b, .inr (.inr (.inr ⟨b, ⟨h, .inl ⟨hm, ⟨hd, he⟩, rfl⟩⟩, rfl⟩))⟩
        · exact ⟨_, acceptPayload_of_full h b, .inl ⟨.capacity, ⟨h, .inl ⟨hm, hd, he⟩⟩, rfl⟩⟩
  · simp only [dbyte, hm, dbyteEscaped]
    by_cases hd : b = Config.delimiter
    · rw [if_pos hd]
      exact ⟨_, rfl, .inl ⟨.prematureEnd, ⟨hd, .inr hm⟩, rfl⟩⟩
    · rw [if_neg hd]
      rcases hu : unescape b with _ | v
      · exact ⟨_, rfl, .inl ⟨.malformedEscape, ⟨hm, hd, unescape_eq_none.mp hu⟩, rfl⟩⟩
      · rcases Nat.lt_or_eq_of_le h with h | h
        · exact ⟨_, acceptPayload_of_lt h v, .inr (.inr (.inr ⟨v, ⟨h, .inr ⟨hm, hu⟩⟩, rfl⟩))⟩
        · refine ⟨_, acceptPayload_of_full h v, .inl ⟨.capacity, ⟨h, .inr ⟨hm, ?_⟩⟩, rfl⟩⟩
          rcases unescape_eq_some.mp hu with ⟨hb, -⟩ | ⟨hb, -⟩
          · exact .inl hb
          · exact .inr hb
  · simp only [dbyte, hm]
    exact ⟨_, rfl, .inl ⟨.faultReentry, hm, rfl⟩⟩

/-- If a DBYTE goes on from any state, legal or not, it goes on in one of the four ways. -/
theorem dbyte_cases {b : Byte} {s t : State} (h : dbyte b s = .next t) : DbyteCase b s t := by
  by_cases hw : s.wp ≤ s.cap
  · obtain ⟨t', ht', hc⟩ := dbyte_total (b := b) hw
    rw [h] at ht'
    cases ht'
    exact hc
  · have stuck (v : Byte) : acceptPayload v s = .fault (.storeOutsideBuffer s.wp) := by
      rw [acceptPayload, if_neg (by omega), append_of_not_lt (by omega), andThen_fault]
    rcases hm : s.mode with _ | _ | _
    · simp only [dbyte, hm, dbyteAccumulating, stuck] at h
      split at h
      · next hd =>
        split at h
        · next hp => cases h; exact .inr (.inl ⟨hm, hd, hp, rfl⟩)
        · omega
      · split at h
        · next he => cases h; exact .inr (.inr (.inl ⟨hm, he, rfl⟩))
        · cases h
    · simp only [dbyte, hm, dbyteEscaped, stuck] at h
      split at h
      · next hd => cases h; exact .inl ⟨.prematureEnd, ⟨hd, .inr hm⟩, rfl⟩
      · next hd =>
        split at h
        · next hu => cases h; exact .inl ⟨.malformedEscape, ⟨hm, hd, unescape_eq_none.mp hu⟩, rfl⟩
        · cases h
    · simp only [dbyte, hm] at h
      cases h
      exact .inl ⟨.faultReentry, hm, rfl⟩

/-- A DBYTE leaves `cap`, `variant`, `host` and `draws` alone, answers exactly one result, and stays legal. -/
theorem DbyteCase.frame {b : Byte} {s t : State} (h : DbyteCase b s t) :
    t.cap = s.cap ∧ t.variant = s.variant ∧ t.host = s.host ∧ t.draws = s.draws ∧ t.bufRdata = s.bufRdata ∧
      ∃ r, t.rsp = s.rsp ++ [r] := by
  rcases h with ⟨c, -, rfl⟩ | ⟨-, -, -, rfl⟩ | ⟨-, -, rfl⟩ | ⟨v, -, rfl⟩ <;>
    exact ⟨rfl, rfl, rfl, rfl, rfl, _, rfl⟩

/-- A DBYTE stores at most at the old `wp`, inside the buffer, and keeps the canonical form (R26, R46). -/
theorem DbyteCase.memory {b : Byte} {s t : State} (h : DbyteCase b s t) :
    t.buf = s.buf ∨ ∃ v, s.wp < s.cap ∧ t.buf = s.buf.write s.wp v := by
  rcases h with ⟨c, -, rfl⟩ | ⟨-, -, -, rfl⟩ | ⟨-, -, rfl⟩ | ⟨v, hv, rfl⟩
  · exact .inl rfl
  · exact .inl rfl
  · exact .inl rfl
  · exact .inr ⟨v, hv.1, rfl⟩

theorem DbyteCase.inv {b : Byte} {s t : State} (h : DbyteCase b s t) (hi : s.Inv) : t.Inv := by
  obtain ⟨hw, hm, hb, hv⟩ := hi
  rcases h with ⟨c, -, rfl⟩ | ⟨-, -, -, rfl⟩ | ⟨-, -, rfl⟩ | ⟨v, ⟨hlt, -⟩, rfl⟩
  · exact ⟨Nat.zero_le _, hm, hb, hv⟩
  · exact ⟨Nat.zero_le _, hm, hb, hv⟩
  · exact ⟨hw, hm, hb, hv⟩
  · exact ⟨hlt, Memory.write_wf hm _ _, Memory.write_below hb hlt _, hv⟩

/-- No DBYTE enters `Faulted` (R33, R125). -/
theorem DbyteCase.mode_ne_faulted {b : Byte} {s t : State} (h : DbyteCase b s t) : t.mode ≠ .faulted := by
  rcases h with ⟨c, -, rfl⟩ | ⟨-, -, -, rfl⟩ | ⟨-, -, rfl⟩ | ⟨v, -, rfl⟩ <;> simp

@[simp] theorem dfeed_nil (s : State) : dfeed [] s = .next s := rfl
@[simp] theorem dfeed_cons (b : Byte) (bs : List Byte) (s : State) :
    dfeed (b :: bs) s = andThen (dbyte b s) (dfeed bs) := rfl

/-- Feeding bytes from a legal state always goes on, to a legal state. -/
theorem dfeed_total {bs : List Byte} {s : State} (h : s.Inv) : ∃ t, dfeed bs s = .next t ∧ t.Inv := by
  induction bs generalizing s with
  | nil => exact ⟨s, rfl, h⟩
  | cons b bs ih =>
    obtain ⟨t, ht, hc⟩ := dbyte_total (b := b) h.1
    obtain ⟨u, hu, hi⟩ := ih (hc.inv h)
    exact ⟨u, by rw [dfeed_cons, ht, andThen_next, hu], hi⟩

/-- Whatever one DBYTE keeps, feeding bytes keeps. -/
theorem dfeed_keeps {P : State → Prop} (step : ∀ b s t, DbyteCase b s t → P s → P t) {bs : List Byte} {s t : State}
    (h : dfeed bs s = .next t) (hp : P s) : P t := by
  induction bs generalizing s with
  | nil => cases h; exact hp
  | cons b bs ih =>
    obtain ⟨u, hu, ht⟩ := andThen_eq_next.mp h
    exact ih ht (step b s u (dbyte_cases hu) hp)

end Sys2Proof.Machine
end

