-- ==== Sys2Proof/Laws/Encoder.lean ====
section
/-! SUPPORT. The stuffing rule's lengths and what EBYTE and EFRAME can do, said once. -/

namespace Sys2Proof.Machine

theorem stuff_length (b : Byte) : (stuff b).length = need b := by
  unfold stuff need
  split
  · next h => simp [h]
  · split
    · next h => simp [h]
    · simp_all

theorem need_pos (b : Byte) : 0 < need b := by unfold need; split <;> simp

theorem need_eq (b : Byte) : need b = 1 + if isSpecial b then 1 else 0 := by
  unfold need isSpecial
  split <;> simp_all

@[simp] theorem stuffSeq_nil : stuffSeq [] = [] := rfl
@[simp] theorem stuffSeq_cons (b : Byte) (m : List Byte) : stuffSeq (b :: m) = stuff b ++ stuffSeq m := rfl

/-- `len(stuffseq(m)) = n + k` (R92). -/
theorem stuffSeq_length (m : List Byte) : (stuffSeq m).length = m.length + specials m := by
  induction m with
  | nil => rfl
  | cons b m ih =>
    have hk : specials (b :: m) = specials m + if isSpecial b then 1 else 0 := List.countP_cons ..
    rw [stuffSeq_cons, List.length_append, stuff_length, need_eq, ih, hk, List.length_cons]
    omega

/-- The tokens of a message all fit exactly if the stuffed message does (R96). -/
theorem encodeBytes_of_fits {m : List Byte} {s : State} (h : s.wp + (stuffSeq m).length ≤ s.cap) :
    encodeBytes m s = .next (some (afterStores (stuffSeq m) s)) := by
  induction m generalizing s with
  | nil => rfl
  | cons b m ih =>
    simp only [stuffSeq_cons, List.length_append, stuff_length] at h
    have hfit : s.wp + (stuff b).length ≤ s.cap := by rw [stuff_length]; omega
    rw [encodeBytes, if_neg (by omega), appendAll_of_fits hfit, andThen_next, ih, stuffSeq_cons, afterStores_append]
    simp only [afterStores_wp, afterStores_cap, stuff_length]
    omega

/-- A message whose stuffed form does not fit ends the loop with failure (R97). -/
theorem encodeBytes_of_not_fits {m : List Byte} {s : State} (h : s.cap < s.wp + (stuffSeq m).length) (hw : s.wp ≤ s.cap) :
    encodeBytes m s = .next none := by
  induction m generalizing s with
  | nil => simp at h; omega
  | cons b m ih =>
    rw [encodeBytes]
    split
    · rfl
    · next hb =>
      have hfit : s.wp + (stuff b).length ≤ s.cap := by rw [stuff_length]; omega
      rw [appendAll_of_fits hfit, andThen_next]
      refine ih ?_ ?_
      · simp only [stuffSeq_cons, List.length_append] at h
        simp only [afterStores_cap, afterStores_wp]
        omega
      · simpa using hfit

/-- EFRAME when the frame fits: the stores of the frame from index 0, and its length (R96). -/
theorem execEframe_of_fits {m : List Byte} {s : State} (h : m.length + specials m + 1 ≤ s.cap) :
    execEframe m s = .next ((afterStores (frame m) s.accept.doReset).reply (.done (m.length + specials m + 1))) := by
  have hl := stuffSeq_length m
  have hfit : s.accept.doReset.wp + (stuffSeq m).length ≤ s.accept.doReset.cap := by
    simp only [State.doReset_wp, State.doReset_cap, State.accept_cap]; omega
  have hd : (afterStores (stuffSeq m) s.accept.doReset).wp < (afterStores (stuffSeq m) s.accept.doReset).cap := by
    simp only [afterStores_wp, afterStores_cap, State.doReset_wp, State.doReset_cap, State.accept_cap]; omega
  rw [execEframe, encodeBytes_of_fits hfit, andThen_next, closeFrame, if_neg (by omega), append_of_lt hd, andThen_next,
    frame, afterStores_append]
  have hn : 0 + (stuffSeq m).length + 1 = m.length + specials m + 1 := by omega
  simp only [afterStores_cons, afterStores_nil, afterStore_wp, afterStores_wp, State.doReset_wp, hn]

/-- EFRAME when the frame does not fit (R97). -/
theorem execEframe_of_not_fits {m : List Byte} {s : State} (h : s.cap < m.length + specials m + 1) :
    execEframe m s = .next (encodeFailure s.accept) := by
  have hl := stuffSeq_length m
  rw [execEframe]
  by_cases hf : s.accept.doReset.wp + (stuffSeq m).length ≤ s.accept.doReset.cap
  · rw [encodeBytes_of_fits hf, andThen_next, closeFrame, if_pos]
    simp only [afterStores_wp, afterStores_cap, State.doReset_wp, State.doReset_cap, State.accept_cap] at hf ⊢
    omega
  · rw [encodeBytes_of_not_fits (by omega) (Nat.zero_le _), andThen_next, closeFrame]

/-- EBYTE when the token fits (R93). -/
theorem execEbyte_of_fits {b : Byte} {s : State} (h : s.wp + need b ≤ s.cap) :
    execEbyte b s = .next ((afterStores (stuff b) s.accept).reply .ok) := by
  rw [execEbyte, if_neg (by omega), appendAll_of_fits (by rw [stuff_length]; exact h), andThen_next]

/-- EBYTE when the token does not fit, legal state or not (R94). -/
theorem execEbyte_of_not_fits {b : Byte} {s : State} (h : s.cap < s.wp + need b) :
    execEbyte b s = .next (raiseEncodeCapacity s.accept) := by
  have := need_pos b
  rw [execEbyte, if_pos (by omega)]

/-- What an EBYTE that goes on did (R93, R94). -/
theorem execEbyte_cases {b : Byte} {s t : State} (h : exec (.ebyte b) s = .next t) :
    (s.wp + need b ≤ s.cap ∧ t = (afterStores (stuff b) s.accept).reply .ok) ∨
    (s.cap < s.wp + need b ∧ t = raiseEncodeCapacity s.accept) := by
  by_cases hf : s.wp + need b ≤ s.cap
  · exact .inl ⟨hf, by simpa [exec, execEbyte_of_fits hf, eq_comm] using h⟩
  · have hf : s.cap < s.wp + need b := by omega
    exact .inr ⟨hf, by simpa [exec, execEbyte_of_not_fits hf, eq_comm] using h⟩

/-- What an EFRAME that goes on did (R96, R97). -/
theorem execEframe_cases {m : List Byte} {s t : State} (h : exec (.eframe m) s = .next t) :
    (m.length + specials m + 1 ≤ s.cap ∧
      t = (afterStores (frame m) s.accept.doReset).reply (.done (m.length + specials m + 1))) ∨
    (s.cap < m.length + specials m + 1 ∧ t = encodeFailure s.accept) := by
  by_cases hf : m.length + specials m + 1 ≤ s.cap
  · exact .inl ⟨hf, by simpa [exec, execEframe_of_fits hf, eq_comm] using h⟩
  · have hf : s.cap < m.length + specials m + 1 := by omega
    exact .inr ⟨hf, by simpa [exec, execEframe_of_not_fits hf, eq_comm] using h⟩

/-- The unspecified `wp` of a frame that was not completed stays within the buffer (R97). -/
theorem State.spoil_wp_le (s : State) : s.spoil.wp ≤ s.cap :=
  Nat.lt_succ_iff.mp (Nat.mod_lt _ (Nat.succ_pos _))

/-- Every byte of BUF reads as the draw's free value after a frame that was not completed (R97). -/
theorem State.spoil_read (s : State) (a : Nat) :
    s.spoil.buf.read a = if a < s.cap then Config.freeByte s.draws a else s.buf.read a := by
  simp [unspecifyBytes_read]

end Sys2Proof.Machine
end

