-- ==== Sys2Proof/Laws/Encoding.lean ====
section
/-! SUPPORT. The fields of a command word and the decoding of each encoding. -/

namespace Sys2Proof

/-- The bits of a command word (R69): `data` below bit 8, `op` from it. -/
theorem commandWord_getLsbD (op : BitVec 3) (d : Byte) (i : Nat) :
    (commandWord op d).getLsbD i = if i < 8 then d.getLsbD i else op.getLsbD (i - 8) :=
  BitVec.getLsbD_append

@[simp] theorem PortCommand.op_commandWord (op : BitVec 3) (d : Byte) (l : Nat) (m : List Byte) :
    PortCommand.op ⟨commandWord op d, l, m⟩ = op := by
  apply BitVec.eq_of_getLsbD_eq
  intro i hi
  simp [PortCommand.op, commandWord_getLsbD, hi]

@[simp] theorem PortCommand.data_commandWord (op : BitVec 3) (d : Byte) (l : Nat) (m : List Byte) :
    PortCommand.data ⟨commandWord op d, l, m⟩ = d := by
  apply BitVec.eq_of_getLsbD_eq
  intro i hi
  simp [PortCommand.data, commandWord_getLsbD, hi]

/-- A command word is its `op` and its `data` (R69): no bit of it is outside the two fields. -/
theorem PortCommand.commandWord_op_data (c : PortCommand) : commandWord c.op c.data = c.word := by
  apply BitVec.eq_of_getLsbD_eq
  intro i hi
  rw [commandWord_getLsbD]
  split
  · next h => simp [PortCommand.data, h]
  · next h => simp [PortCommand.op, show i - 8 < 3 by omega, show 8 + (i - 8) = i by omega]

theorem decodeToken_delimiter (rest : List Byte) : decodeToken (Config.delimiter :: rest) = .ok (.wireEnd, rest) := by
  simp [decodeToken]

theorem decodeToken_literal {b : Byte} (h : ordinary b) (rest : List Byte) :
    decodeToken (b :: rest) = .ok (.wireLiteral b, rest) := by
  simp [decodeToken, h.1, h.2]

theorem decodeToken_escape (x : Byte) (rest : List Byte) :
    decodeToken (Config.escape :: x :: rest) = .ok
      (if x = Config.escapedDelimiter then .wireEscEnd
       else if x = Config.escapedEscape then .wireEscEsc else .wireEscInvalid x, rest) := by
  simp only [decodeToken, show ¬ Config.escape = Config.delimiter by decide, if_false, if_true]
  split
  · rfl
  · split <;> rfl

end Sys2Proof
end

