-- ==== Sys2Proof/Laws/PerInstr.lean ====
section
/-! SUPPORT. The family DecodeEncode: every well-formed instruction is what its encoding decodes to. -/

namespace Sys2Proof.Laws.DecodeEncode

/-- Decoding the encoding gives the instruction back, if it is well-formed. -/
def Statement (i : Instr) : Prop := i.wellFormed → decode (encode i) = .ok i

theorem reset : Statement .reset := fun _ => rfl
theorem len : Statement .len := fun _ => rfl
theorem dbyte (b : Byte) : Statement (.dbyte b) := fun _ => by simp [encode, decode, decodePort]
theorem ebyte (b : Byte) : Statement (.ebyte b) := fun _ => by simp [encode, decode, decodePort]
theorem eframe (msg : List Byte) : Statement (.eframe msg) := fun _ => by simp [encode, decode, decodePort]
theorem reserved5 : Statement .reserved5 := fun _ => rfl
theorem reserved6 : Statement .reserved6 := fun _ => rfl
theorem reserved7 : Statement .reserved7 := fun _ => rfl
theorem wireEnd : Statement .wireEnd := fun _ => rfl
theorem wireEscEnd : Statement .wireEscEnd := fun _ => rfl
theorem wireEscEsc : Statement .wireEscEsc := fun _ => rfl

theorem wireLiteral (v : Byte) : Statement (.wireLiteral v) := fun h => by
  have h : ordinary v := by simpa only [Instr.wellFormed, decide_eq_true_eq] using h
  simp only [encode, decode, decodeToken_literal h]

theorem wireEscInvalid (x : Byte) : Statement (.wireEscInvalid x) := fun h => by
  have h : ¬ escapeCode x := by simpa only [Instr.wellFormed, decide_eq_true_eq] using h
  obtain ⟨h1, h2⟩ := not_or.mp h
  simp only [encode, decode, decodeToken_escape, if_neg h1, if_neg h2]

end Sys2Proof.Laws.DecodeEncode
end

