-- ==== Sys2Proof/Laws/Runs.lean ====
section
/-! SUPPORT. Runs of operations, and why the results of a run may be listed apart from its states: DBYTE reads no output. -/

namespace Sys2Proof.Machine

theorem transcript_cons {i : Instr} {is : List Instr} {s t : State} (h : exec i s = .next t) :
    transcript (i :: is) s = (transcript is t).map fun p => (p.1, t.rsp ++ p.2) := by
  simp [transcript, h]

theorem transcript_append {is js : List Instr} {s t : State} {rs : List Result} (h : transcript is s = some (t, rs)) :
    transcript (is ++ js) s = (transcript js t).map fun p => (p.1, rs ++ p.2) := by
  induction is generalizing s rs with
  | nil =>
    cases h
    simp
  | cons i is ih =>
    simp only [transcript] at h
    split at h
    · next u hu =>
      obtain ⟨p, hp, he⟩ := Option.map_eq_some_iff.mp h
      cases he
      rw [List.cons_append, transcript_cons hu, ih hp]
      cases transcript js p.1 <;> simp
    · cases h
    · cases h

/-- The instruction of a wire token feeds the token's bytes. -/
theorem exec_wire {i : Instr} {bytes : List Byte} (h : encode i = .wire bytes) (s : State) :
    exec i s = dfeed bytes s.accept := by
  cases i <;> simp only [encode, Command.wire.injEq, reduceCtorEq] at h <;> subst h <;> rfl

/-- A state with other outputs and other pending events, the new results after the given ones. -/
def State.listed (rsp : List Result) (rdata : Option Byte) (host : List HostEvent) (t : State) : State :=
  { t with rsp := rsp ++ t.rsp, bufRdata := rdata, host := host }

/-- The outcome with the state changed so. -/
def mapNext {α β : Type} (f : α → β) (o : Out α) : Out β := andThen o fun a => .next (f a)

theorem acceptPayload_listed (v : Byte) (s : State) (l : List Result) (d : Option Byte) (h : List HostEvent) :
    acceptPayload v { s with rsp := l, bufRdata := d, host := h } = mapNext (State.listed l d h) (acceptPayload v s.accept) := by
  by_cases h1 : s.wp = s.cap
  · rw [acceptPayload_of_full (s := s.accept) h1, acceptPayload_of_full (s := { s with rsp := l, bufRdata := d, host := h }) h1]
    simp [mapNext, State.listed, raiseDecodeError, State.doReset, State.reply, State.accept]
  · by_cases h2 : s.wp < s.cap
    · rw [acceptPayload_of_lt (s := s.accept) h2, acceptPayload_of_lt (s := { s with rsp := l, bufRdata := d, host := h }) h2]
      simp [mapNext, State.listed, afterPayload, afterStore, State.reply, State.accept]
    · simp [acceptPayload, h1, append, h2, mapNext]

/-- DBYTE reads neither the outputs nor the pending events: it only adds its result to the list (R30). -/
theorem dbyte_listed (b : Byte) (s : State) (l : List Result) (d : Option Byte) (h : List HostEvent) :
    dbyte b { s with rsp := l, bufRdata := d, host := h } = mapNext (State.listed l d h) (dbyte b s.accept) := by
  rcases hm : s.mode with _ | _ | _
  · simp only [dbyte, hm, State.accept_mode, dbyteAccumulating]
    by_cases h1 : b = Config.delimiter
    · by_cases h2 : 0 < s.wp <;>
        simp [h1, h2, mapNext, State.listed, State.reply, State.doReset, raiseDecodeError, State.accept]
    · rw [if_neg h1, if_neg h1]
      by_cases h2 : b = Config.escape
      · rw [if_pos h2, if_pos h2]
        simp [mapNext, State.listed, State.reply, State.accept]
      · rw [if_neg h2, if_neg h2]
        simpa only [hm] using acceptPayload_listed b s l d h
  · simp only [dbyte, hm, State.accept_mode, dbyteEscaped]
    by_cases h1 : b = Config.delimiter
    · simp [h1, mapNext, State.listed, State.reply, State.doReset, raiseDecodeError, State.accept]
    · rw [if_neg h1, if_neg h1]
      rcases unescape b with _ | v
      · simp [mapNext, State.listed, State.reply, State.doReset, raiseDecodeError, State.accept]
      · simpa only [hm] using acceptPayload_listed v s l d h
  · simp [dbyte, hm, mapNext, State.listed, State.reply, State.doReset, raiseDecodeError, State.accept]

/-- A step serves the host's next event. -/
theorem step_of_event {s : State} {e : HostEvent} {rest : List HostEvent} (hv : s.variant = .singleEnded)
    (hh : s.host = e :: rest) : step s = serve e { s with host := rest } := by
  simp [step, hv, takeEvent, hh]

end Sys2Proof.Machine
end

