-- ==== Sys2Proof/Tests/Slice0.lean ====
section
/-! SUPPORT. The model's own tests. Expected results are the spec's: its worked examples S0 to S9, its derived vectors and the
examples of its rules (95_test_vectors.md), and encodings written out from R62 and R69. Then one witness for the hypotheses of
each statement. -/

namespace Sys2Proof.Tests

open Sys2Proof Sys2Proof.Machine

/-- A state of a capacity, mode and `wp` whose BUF begins with the bytes. -/
def mk (cap : Nat) (mode : Mode) (wp : Nat) (bytes : List Byte) : State :=
  { State.fresh cap with mode := mode, wp := wp, buf := bytes.zipIdx.map fun p => (p.2, p.1) }

/-- The fields a vector fixes: mode, `wp`, the stored bytes in order, the results. -/
def seen (o : Out State) : Option (Mode × Nat × List Byte × List Result) :=
  (nextState o).map fun t => (t.mode, t.wp, t.buf.map Prod.snd, t.rsp)

/-! ## The well-formedness checks refuse ill-formed terms -/

theorem test_literal_is_ordinary : Instr.wellFormed (.wireLiteral 0xC0) = false ∧
    Instr.wellFormed (.wireLiteral 0xDB) = false ∧ Instr.wellFormed (.wireLiteral 0xDC) = true := by decide
theorem test_invalid_escape_is_no_code : Instr.wellFormed (.wireEscInvalid 0xDC) = false ∧
    Instr.wellFormed (.wireEscInvalid 0xDD) = false ∧ Instr.wellFormed (.wireEscInvalid 0xDB) = true := by decide

/-! ## Decoding: words written out from R69 and R62, and rejections by name -/

theorem test_decode_control : decodePort ⟨0b000_00000000, 0, []⟩ = .ok .reset ∧
    decodePort ⟨0b000_11111111, 7, []⟩ = .ok .reset ∧ decodePort ⟨0b001_00000000, 0, []⟩ = .ok .len := ⟨rfl, rfl, rfl⟩
theorem test_decode_data : decodePort ⟨0b010_11011011, 0, []⟩ = .ok (.dbyte 0xDB) ∧
    decodePort ⟨0b011_00000001, 0, []⟩ = .ok (.ebyte 0x01) ∧
    decodePort ⟨0b100_00000000, 2, [1, 2, 3]⟩ = .ok (.eframe [1, 2]) := ⟨rfl, rfl, rfl⟩
theorem test_decode_reserved : decodePort ⟨0b101_00000000, 0, []⟩ = .ok .reserved5 ∧
    decodePort ⟨0b110_00000001, 0, []⟩ = .ok .reserved6 ∧ decodePort ⟨0b111_11111111, 0, []⟩ = .ok .reserved7 :=
  ⟨rfl, rfl, rfl⟩
theorem test_decode_wire : decode (.wire [0b11000000]) = .ok .wireEnd ∧
    decode (.wire [0b11011011, 0b11011100]) = .ok .wireEscEnd ∧ decode (.wire [0b11011011, 0b11011101]) = .ok .wireEscEsc ∧
    decode (.wire [0b01000001]) = .ok (.wireLiteral 0x41) ∧
    decode (.wire [0b11011011, 0b11000000]) = .ok (.wireEscInvalid 0xC0) := ⟨rfl, rfl, rfl, rfl, rfl⟩
theorem test_decode_rejects : decodePort ⟨0b100_00000000, 2, [1]⟩ = .error .messageShorterThanLength ∧
    decode (.wire []) = .error .noBytes ∧ decode (.wire [0xDB]) = .error .incompleteEscape ∧
    decode (.wire [0x41, 0x42]) = .error .moreThanOneToken := ⟨rfl, rfl, rfl, rfl⟩
theorem test_table_words : decodeTableWord 16 0x241 = some (.dbyte 0x41) ∧ decodeTableWord 16 0xDBDC = some .wireEscEnd ∧
    decodeTableWord 8 0xC0 = some .wireEnd ∧ decodeTableWord 16 0xDBDB = some (.wireEscInvalid 0xDB) ∧
    decodeTableWord 8 0xDB = none ∧ decodeTableWord 16 0x4142 = none := by decide
/-- The syntax of R78. -/
theorem test_text : Instr.text (.dbyte 0x0F) = "DBYTE 0x0F" ∧ Instr.text (.eframe [0x01, 0xC0]) = "EFRAME [0x01, 0xC0]" := by
  decide

/-! ## Widths, results and reset -/

/-- R99's case `CAP = 3`, `LW = 2`. -/
theorem test_widths : Config.lengthWidth 3 = 2 ∧ Config.lengthWidth 0 = 1 ∧ Config.addressWidth 8 = 3 := by decide
/-- P3's software views: 0, -1, +2. -/
theorem test_software_view : softwareView (.dbyte 0xDB) .ok = some (.number 0) ∧
    softwareView (.dbyte 0x41) (.err .malformedEscape) = some (.number (-1)) ∧
    softwareView (.dbyte 0xC0) (.done 2) = some (.number 2) := by decide
theorem test_reset_state : State.reset.mode = .accumulating ∧ State.reset.wp = 0 ∧ State.reset.cap = 8 := by decide

/-! ## Instructions -/

/-- S7. -/
theorem test_reset : seen (exec .reset (mk 4 .escaped 3 [0x11, 0x22, 0x33, 0x44])) =
    some (.accumulating, 0, [0x11, 0x22, 0x33, 0x44], [.ok]) := by decide
/-- K2. -/
theorem test_len : seen (exec .len (mk 4 .accumulating 2 [1, 2])) = some (.accumulating, 2, [1, 2], [.val 2]) := by decide

/-- T1 to T11. -/
theorem test_dbyte_transitions : ∀ r ∈ [
      (exec (.dbyte 0x41) (mk 4 .faulted 2 [0x11, 0x22]), .accumulating, 0, [0x11, 0x22], [.err .faultReentry]),
      (exec (.dbyte 0xC0) (mk 4 .faulted 2 [0x11, 0x22]), .accumulating, 0, [0x11, 0x22], [.err .faultReentry]),
      (exec (.dbyte 0xC0) (mk 4 .accumulating 3 [1, 2, 3]), .accumulating, 0, [1, 2, 3], [.done 3]),
      (exec (.dbyte 0xC0) (mk 4 .accumulating 0 []), .accumulating, 0, [], [.err .prematureEnd]),
      (exec (.dbyte 0xC0) (mk 4 .escaped 1 [0x41]), .accumulating, 0, [0x41], [.err .prematureEnd]),
      (exec (.dbyte 0xDB) (mk 2 .accumulating 2 [0x41, 0x42]), .escaped, 2, [0x41, 0x42], [.ok]),
      (exec (.dbyte 0xDC) (mk 4 .accumulating 0 []), .accumulating, 1, [0xDC], [.ok]),
      (exec (.dbyte 0x43) (mk 2 .accumulating 2 [0x41, 0x42]), .accumulating, 0, [0x41, 0x42], [.err .capacity]),
      (exec (.dbyte 0xDC) (mk 4 .escaped 1 [0x41]), .accumulating, 2, [0x41, 0xC0], [.ok])],
    seen r.1 = some r.2 := by decide
/-- T12 to T17. -/
theorem test_dbyte_escapes : ∀ r ∈ [
      (exec (.dbyte 0xDD) (mk 4 .escaped 0 []), .accumulating, 1, [0xDB], [.ok]),
      (exec (.dbyte 0xDC) (mk 1 .escaped 1 [0x41]), .accumulating, 0, [0x41], [.err .capacity]),
      (exec (.dbyte 0xDD) (mk 2 .escaped 2 [0x41, 0x42]), .accumulating, 0, [0x41, 0x42], [.err .capacity]),
      (exec (.dbyte 0x41) (mk 4 .escaped 1 [0x41]), .accumulating, 0, [0x41], [.err .malformedEscape]),
      (exec (.dbyte 0xDB) (mk 4 .escaped 0 []), .accumulating, 0, [], [.err .malformedEscape]),
      (exec (.dbyte 0x00) (mk 1 .escaped 1 [0x41]), .accumulating, 0, [0x41], [.err .malformedEscape])],
    seen r.1 = some r.2 := by decide

/-- B3, and B1's last step. -/
theorem test_ebyte : seen (exec (.ebyte 0xC0) (mk 4 .escaped 1 [0xAA])) = some (.escaped, 3, [0xAA, 0xDB, 0xDC], [.ok]) ∧
    seen (exec (.ebyte 0xDB) (mk 4 .accumulating 3 [0x7E, 0xDB, 0xDC])) =
      some (.accumulating, 3, [0x7E, 0xDB, 0xDC], [.err .capacity]) := by decide
/-- B2's second and third steps. -/
theorem test_ebyte_last_byte : seen (exec (.ebyte 0x41) (mk 4 .accumulating 3 [0xAA, 0xBB, 0xCC])) =
      some (.accumulating, 4, [0xAA, 0xBB, 0xCC, 0x41], [.ok]) ∧
    seen (exec (.ebyte 0x42) (mk 4 .accumulating 4 [0xAA, 0xBB, 0xCC, 0x41])) =
      some (.accumulating, 4, [0xAA, 0xBB, 0xCC, 0x41], [.err .capacity]) := by decide

/-- E2 (exact fit), E8, E9 (the start state does not matter), S8. -/
theorem test_eframe : ∀ r ∈ [
      (exec (.eframe [0x01, 0xC0, 0xDB, 0x02]) (mk 7 .accumulating 0 []), .accumulating, 7, [0x01, 0xDB, 0xDC, 0xDB, 0xDD, 0x02, 0xC0], [.done 7]),
      (exec (.eframe [0xDC, 0xDD]) (mk 3 .escaped 3 [1, 2, 3]), .accumulating, 3, [0xDC, 0xDD, 0xC0], [.done 3]),
      (exec (.eframe []) (mk 1 .accumulating 0 []), .accumulating, 1, [0xC0], [.done 1])],
    seen r.1 = some r.2 := by decide
/-- E3 (only the delimiter did not fit), S3, V-CAP0: the error and the mode are fixed. -/
theorem test_eframe_fails : ((nextState (exec (.eframe [0x01, 0xC0, 0xDB, 0x02]) (mk 6 .escaped 0 []))).map
      fun t => (t.mode, t.rsp)) = some (.accumulating, [.err .capacity]) ∧
    ((nextState (exec (.eframe [0xC0]) (mk 2 .accumulating 0 []))).map State.rsp) = some [.err .capacity] ∧
    ((nextState (exec (.eframe []) (mk 0 .accumulating 0 []))).map State.rsp) = some [.err .capacity] := by decide

theorem test_reserved : exec .reserved5 State.reset = .refused (.reservedCommand 5) ∧
    exec .reserved6 State.reset = .refused (.reservedCommand 6) ∧
    exec .reserved7 State.reset = .refused (.reservedCommand 7) := ⟨rfl, rfl, rfl⟩

/-- T3, and D1's bytes by tokens. -/
theorem test_wire_end : seen (exec .wireEnd (mk 4 .accumulating 3 [1, 2, 3])) =
    some (.accumulating, 0, [1, 2, 3], [.done 3]) := by decide
/-- D17's first and second tokens, and D4. -/
theorem test_wire_escapes : ∀ r ∈ [
      (exec .wireEscEsc (mk 4 .accumulating 0 []), .accumulating, 1, [0xDB], [.ok, .ok]),
      (exec .wireEscEnd (mk 4 .accumulating 1 [0xDB]), .accumulating, 2, [0xDB, 0xC0], [.ok, .ok]),
      (exec (.wireEscInvalid 0xDB) (mk 4 .accumulating 0 []), .accumulating, 0, [], [.ok, .err .malformedEscape])],
    seen r.1 = some r.2 := by decide
/-- D13: the ESC was consumed by the fault. -/
theorem test_wire_token_after_fault : seen (exec .wireEscEnd (mk 4 .faulted 0 [])) =
    some (.accumulating, 1, [0xDC], [.err .faultReentry, .ok]) := by decide
/-- T8 as a token. -/
theorem test_wire_literal : seen (exec (.wireLiteral 0xDC) (mk 4 .accumulating 0 [])) =
    some (.accumulating, 1, [0xDC], [.ok]) := by decide

/-! ## Steps -/

theorem test_step_runs_table_word : seen (step (State.reset.withFetchWord 16 0x241)) =
    some (.accumulating, 1, [0x41], [.ok]) := by decide
theorem test_step_line_keeps_rest : (nextState (step { State.reset with host := [.line [0xDB, 0xDC, 0x41]] })).map State.host =
    some [.line [0x41]] := by decide
theorem test_step_host_write : (nextState (step { State.reset with host := [.writeBuf 7 0x55, .hardwareReset] })).map State.buf =
    some [(7, 0x55)] ∧ (nextState (step { State.reset with host := [.writeBuf 8 0x55] })).map State.buf = some [] := by decide

/-! ## Witnesses: the hypotheses of each statement are met together -/

theorem witness_StepKeepsTheInvariant : (State.reset.withFetchWord 16 0x241).Inv ∧
    (nextState (step (State.reset.withFetchWord 16 0x241))).isSome := by decide
theorem witness_NoStepStoresOutsideTheBuffer : (mk 1 .accumulating 1 [0x41]).Inv := by decide
theorem witness_FaultedIsNeverEntered : (State.reset.withFetchWord 16 0x2DB).mode ≠ .faulted ∧
    (nextState (step (State.reset.withFetchWord 16 0x2DB))).isSome := by decide
theorem witness_NoStepRebindsOrReconfigures : (nextState (step (State.reset.withFetchWord 16 0x000))).isSome := by decide
theorem witness_DoubleEndedHasNoStep : ({ State.reset with variant := .doubleEnded } : State).variant = .doubleEnded := rfl
theorem witness_StoreChangesOneByteOfBuf : Memory.wf [(0, 0x41), (3, 0x42)] := by decide
theorem witness_LengthWidthIsLeast : (1 ≤ 1 ∧ 1 < 2 ^ 1) ∧ (1 ≤ 2 ∧ 3 < 2 ^ 2) ∧ (1 ≤ 3 ∧ 8 ≤ 2 ^ 3) := by decide
theorem witness_DecodeOfEncodeIsTheInstruction : Instr.wellFormed (.wireLiteral 0xFF) = true ∧
    Instr.wellFormed (.wireEscInvalid 0xC0) = true ∧ Instr.wellFormed (.dbyte 0xDB) = true := by decide
theorem witness_TokenIsExactlyTheBytesItTook : decodeToken [0xDB, 0xDC, 0x41] = .ok (.wireEscEnd, [0x41]) ∧
    decodeToken [0x41] = .ok (.wireLiteral 0x41, []) := ⟨rfl, rfl⟩
theorem witness_CommandWordSelectsTheOperation : (0x0FF#11 &&& 0x700#11 = 0x000#11) ∧ (0x100#11 &&& 0x700#11 = 0x100#11) ∧
    (0x2FF#11 &&& 0x700#11 = 0x200#11) ∧ (0x300#11 &&& 0x700#11 = 0x300#11) ∧
    (0x4FF#11 &&& 0x700#11 = 0x400#11 ∧ 2 ≤ ([1, 2] : List Byte).length) ∧ (0x500#11 &&& 0x700#11 = 0x500#11) ∧
    (0x6FF#11 &&& 0x700#11 = 0x600#11) ∧ (0x7FF#11 &&& 0x700#11 = 0x700#11) := by decide
theorem witness_ReservedCommandsAreRefused : (State.reset.withFetchWord 16 0x500).variant = .singleEnded ∧
    (State.reset.withFetchWord 16 0x500).host = [.command ⟨0x500, 0, []⟩] ∧ 5 ≤ ((0x500#11) >>> 8).toNat ∧
    5 ≤ ((0x7FF#11) >>> 8).toNat := by decide
theorem witness_StepRunsTheDecodedInstruction : State.reset.variant = .singleEnded ∧
    (State.reset.withFetchWord 16 0x4FF).host = [.command ⟨0x4FF, 0, []⟩] ∧
    decodePort ⟨0x4FF, 0, []⟩ = .ok (.eframe []) ∧
    (State.reset.withFetchWord 16 0xDB00).host = [.line [0xDB, 0x00]] ∧
    decodeToken [0xDB, 0x00] = .ok (.wireEscInvalid 0x00, []) ∧
    decodeTableWord 16 0x7FF = some .reserved7 := ⟨rfl, rfl, rfl, rfl, rfl, rfl⟩
theorem witness_ResetOperationResetsInEveryState : (nextState (exec .reset (mk 4 .faulted 4 []))).isSome := by decide

/-- For each clause, an operation that gives the clause's result, and a LEN that goes on after it. -/
theorem witness_LengthAtEachMoment :
    nextState (construct 0 .singleEnded) = some (State.fresh 0) ∧
    (nextState (step { State.reset with host := [.hardwareReset] })).isSome ∧
    (nextState (step { State.reset with host := [.hardwareResetDuring ⟨0x400, 0, []⟩] })).isSome ∧
    (nextState (exec .reset (mk 4 .escaped 4 []))).isSome ∧
    (∀ t, ∃ u, exec .len t = .next u) := ⟨by decide, by decide, by decide, by decide, fun _ => ⟨_, rfl⟩⟩
theorem witness_LengthAtEachMoment_results : ∀ p ∈ [
      (exec (.dbyte 0xDB) (mk 4 .accumulating 4 []), Result.ok), (exec (.dbyte 0xDD) (mk 4 .escaped 3 []), .ok),
      (exec (.dbyte 0x41) (mk 4 .accumulating 3 []), .ok), (exec (.dbyte 0xC0) (mk 4 .accumulating 4 []), .done 4),
      (exec (.dbyte 0x41) (mk 4 .accumulating 4 []), .err .capacity), (exec (.ebyte 0xC0) (mk 2 .accumulating 0 []), .ok),
      (exec (.ebyte 0xC0) (mk 2 .accumulating 1 []), .err .capacity), (exec (.eframe []) (mk 1 .accumulating 1 []), .done 1),
      (exec (.eframe []) (mk 0 .accumulating 0 []), .err .capacity)],
    (nextState p.1).map State.rsp = some [p.2] := by decide

theorem witness_DbyteInFaultedClearsTheFault : (mk 4 .faulted 2 []).mode = .faulted := rfl
theorem witness_DbyteDelimiterCompletesTheFrame :
    (mk 4 .accumulating 1 [0x41]).mode = .accumulating ∧ 0 < (mk 4 .accumulating 1 [0x41]).wp := by decide
theorem witness_DbyteDelimiterOnEmptyFrameIsAnError :
    State.reset.mode = .accumulating ∧ State.reset.wp = 0 := by decide
theorem witness_DbyteDelimiterAfterEscapeIsAnError : (mk 4 .escaped 4 []).mode = .escaped := rfl
theorem witness_DbyteEscapeEntersEscaped : (mk 2 .accumulating 2 []).mode = .accumulating := rfl
theorem witness_DbyteOrdinaryByteIsStored : (mk 4 .accumulating 3 []).mode = .accumulating ∧ (0xDC#8 ≠ 0xC0#8) ∧
    (0xDC#8 ≠ 0xDB#8) ∧ (mk 4 .accumulating 3 []).wp < (mk 4 .accumulating 3 []).cap := by decide
theorem witness_DbyteOrdinaryByteOverflows : (mk 1 .accumulating 1 []).mode = .accumulating ∧
    (mk 1 .accumulating 1 []).wp = (mk 1 .accumulating 1 []).cap ∧ 0 < (mk 1 .accumulating 1 []).cap ∧
    (0xC1#8 ≠ 0xC0#8) ∧ (0xC1#8 ≠ 0xDB#8) := by decide
theorem witness_DbyteEscapeCodeStoresItsLiteral : (mk 1 .escaped 0 []).mode = .escaped ∧
    (mk 1 .escaped 0 []).wp < (mk 1 .escaped 0 []).cap ∧ (0xDC#8 = 0xDC#8 ∧ 0xC0#8 = 0xC0#8) := by decide
theorem witness_DbyteEscapedLiteralOverflows : (mk 0 .escaped 0 []).mode = .escaped ∧
    (mk 0 .escaped 0 []).wp = (mk 0 .escaped 0 []).cap ∧ (0xDD#8 = 0xDC#8 ∨ 0xDD#8 = 0xDD#8) := by decide
theorem witness_DbyteMalformedEscape : (mk 1 .escaped 1 []).mode = .escaped ∧ (0xDE#8 ≠ 0xC0#8) ∧ (0xDE#8 ≠ 0xDC#8) ∧
    (0xDE#8 ≠ 0xDD#8) := by decide
theorem witness_DbyteIsTotalAndResetsUnlessOk : (mk 1 .escaped 1 []).wp ≤ (mk 1 .escaped 1 []).cap := by decide
theorem witness_DecodeErrorEntryResets :
    (nextState (exec (.dbyte 0x00) (mk 1 .escaped 1 []))).map State.rsp = some [.err .malformedEscape] := by decide
/-- A state and a byte for each cause. -/
theorem witness_EachDecodeCauseExactlyWhen :
    (nextState (exec (.dbyte 0xDB) (mk 1 .escaped 1 []))).map State.rsp = some [.err .malformedEscape] ∧
    (nextState (exec (.dbyte 0xC0) (mk 1 .escaped 1 []))).map State.rsp = some [.err .prematureEnd] ∧
    (nextState (exec (.dbyte 0xDD) (mk 1 .escaped 1 []))).map State.rsp = some [.err .capacity] ∧
    (nextState (exec (.dbyte 0xC0) (mk 1 .faulted 1 []))).map State.rsp = some [.err .faultReentry] ∧
    (mk 1 .escaped 1 []).wp ≤ (mk 1 .escaped 1 []).cap := by decide
theorem witness_ConsecutiveDelimitersAreErrors : (mk 0 .accumulating 0 []).mode = .accumulating ∧
    (mk 0 .accumulating 0 []).wp = 0 := by decide
theorem witness_StuffingRule : (0xDC#8 ≠ 0xDB#8) ∧ (0xDC#8 ≠ 0xC0#8) := by decide
theorem witness_FrameLengthIsExact : ∀ b ∈ [0xC0#8, 0xDB#8], b = 0xC0#8 ∨ b = 0xDB#8 := by decide
theorem witness_StuffedOutputLaws : (stuffSeq [0xC0])[0]? = some 0xDB#8 ∧ stuffSeq [0xDB] = stuffSeq [0xDB] := by decide
theorem witness_EbyteStoresTheStuffedToken : (mk 2 .escaped 0 []).wp + need 0xC0 ≤ (mk 2 .escaped 0 []).cap := by decide
theorem witness_EbyteFailureChangesNothing : (mk 2 .escaped 1 []).cap - (mk 2 .escaped 1 []).wp < need 0xDB := by decide
theorem witness_StreamedEncodingIsTheStuffedMessage :
    (mk 4 .accumulating 1 []).wp + (stuffSeq [0x41, 0xC0]).length ≤ (mk 4 .accumulating 1 []).cap := by decide
theorem witness_EframeWritesTheFrame :
    ([0xC0#8] : List Byte).length + specials [0xC0] + 1 ≤ (mk 3 .faulted 3 []).cap := by decide
theorem witness_EframeFailureLeavesBufUnspecified :
    (mk 2 .faulted 2 []).cap < ([0xC0#8] : List Byte).length + specials [0xC0] + 1 := by decide
theorem witness_EframeIsResetEbytesAndDelimiter :
    ([0xC0#8] : List Byte).length + specials [0xC0] + 1 ≤ (mk 3 .accumulating 0 []).cap ∧
    (nextState (exec (.eframe [0xC0]) (mk 2 .accumulating 0 []))).map State.rsp = some [.err .capacity] := by decide
theorem witness_ResultsOfEachOperation : State.reset.wp ≤ State.reset.cap ∧ (nextState (exec .reset State.reset)).isSome ∧
    (nextState (exec .len State.reset)).isSome ∧ (nextState (exec (.dbyte 0xC0) State.reset)).isSome ∧
    (nextState (exec (.ebyte 0xC0) State.reset)).isSome ∧ (nextState (exec (.eframe []) State.reset)).isSome := by decide
theorem witness_SoftwareViewSigns : (mk 4 .accumulating 4 []).wp ≤ (mk 4 .accumulating 4 []).cap ∧
    (nextState (exec (.dbyte 0xC0) (mk 4 .accumulating 4 []))).map State.rsp = some [.done 4] ∧
    (nextState (exec (.eframe []) (mk 4 .accumulating 4 []))).map State.rsp = some [.done 1] := by decide
theorem witness_EveryOperationEndsWithItsResults : (mk 4 .accumulating 4 []).wp ≤ (mk 4 .accumulating 4 []).cap ∧
    Instr.wireEscEnd ≠ .reserved5 ∧ Instr.wireEscEnd ≠ .reserved6 ∧ Instr.wireEscEnd ≠ .reserved7 := by decide
/-- Every operation and token that has a meaning goes on from the reset state, so every frame clause has its case. -/
theorem witness_OperationsTouchOnlyTheirState : ∀ i ∈ [Instr.reset, .len, .dbyte 0x41, .ebyte 0xC0, .eframe [0x01], .wireEnd,
    .wireEscEnd, .wireEscEsc, .wireLiteral 0x41, .wireEscInvalid 0x00], (nextState (exec i State.reset)).isSome := by decide
theorem witness_BufContentsDoNotMatter : (nextState (exec (.eframe [0x01]) State.reset)).isSome := by decide
theorem witness_WireTokensAtATokenBoundary : (mk 2 .accumulating 1 []).mode = .accumulating ∧
    (mk 0 .accumulating 0 []).mode = .accumulating ∧ (mk 0 .accumulating 0 []).wp = 0 ∧
    (mk 0 .accumulating 0 []).wp = (mk 0 .accumulating 0 []).cap ∧
    0 < (mk 2 .accumulating 1 []).wp ∧ (mk 2 .accumulating 1 []).wp < (mk 2 .accumulating 1 []).cap ∧
    (0xDD#8 ≠ 0xC0#8 ∧ 0xDD#8 ≠ 0xDB#8) ∧ (0xDB#8 ≠ 0xC0#8 ∧ 0xDB#8 ≠ 0xDC#8 ∧ 0xDB#8 ≠ 0xDD#8) := by decide
theorem witness_WireTokenIsTheDbytesOfItsBytes : encode .wireEscEsc = .wire [0xDB, 0xDD] ∧
    (mk 1 .escaped 1 []).wp ≤ (mk 1 .escaped 1 []).cap := by decide
theorem witness_IdleFramerKeepsItsState : State.reset.variant = .singleEnded ∧ State.reset.host = [] := by decide
theorem witness_HostReadsAndWritesBuf : State.reset.variant = .singleEnded ∧ 7 < State.reset.cap ∧ State.reset.cap ≤ 8 ∧
    ({ State.reset with host := [.readBuf 7] } : State).host = [.readBuf 7] ∧
    ({ State.reset with host := [.writeBuf 8 0x55] } : State).host = [.writeBuf 8 0x55] := by decide
theorem witness_HardwareResetAbandonsTheOperation : State.reset.variant = .singleEnded ∧
    ({ State.reset with host := [.hardwareReset] } : State).host = [.hardwareReset] ∧
    ({ State.reset with host := [.hardwareResetDuring ⟨0x400, 0, []⟩] } : State).host =
      [.hardwareResetDuring ⟨0x400, 0, []⟩] ∧ (PortCommand.op ⟨0x400, 0, []⟩).toNat < 5 := by decide
theorem witness_HostAccessDuringAnOperation : decodePort ⟨0x400, 0, []⟩ = .ok (.eframe []) ∧
    decodePort ⟨0x2DB, 0, []⟩ = .ok (.dbyte 0xDB) ∧ (nextState (exec (.dbyte 0xDB) State.reset)).isSome ∧
    ({ State.reset with host := [.readBufDuring ⟨0x2DB, 0, []⟩ 7] } : State).host = [.readBufDuring ⟨0x2DB, 0, []⟩ 7] ∧
    ({ State.reset with host := [.writeBufDuring ⟨0x2DB, 0, []⟩ 8] } : State).host = [.writeBufDuring ⟨0x2DB, 0, []⟩ 8] ∧
    ({ State.reset with host := [.unstableMessage ⟨0x400, 0, []⟩] } : State).host = [.unstableMessage ⟨0x400, 0, []⟩] ∧
    (∀ msg, Instr.dbyte 0xDB ≠ .eframe msg) :=
  ⟨rfl, rfl, rfl, rfl, rfl, rfl, fun _ h => by cases h⟩
theorem witness_RoundTripOfEveryNonEmptyMessage : [0xC0#8] ≠ [] ∧
    ([0xC0#8] : List Byte).length + specials [0xC0] + 1 ≤ (mk 3 .accumulating 0 []).cap ∧
    ([0xC0#8] : List Byte).length ≤ (mk 1 .accumulating 0 []).cap ∧ (mk 1 .accumulating 0 []).mode = .accumulating ∧
    (mk 1 .accumulating 0 []).wp = 0 := by decide
theorem witness_EmptyMessageDoesNotRoundTrip : 1 ≤ (mk 1 .accumulating 0 []).cap ∧ State.reset.mode = .accumulating ∧
    State.reset.wp = 0 := by decide
theorem witness_OverlongFrameIsACapacityError : (mk 1 .accumulating 0 []).cap < ([0x41#8, 0xC0#8] : List Byte).length ∧
    (mk 1 .accumulating 0 []).mode = .accumulating ∧ (mk 1 .accumulating 0 []).wp = 0 := by decide
theorem witness_DecoderAcceptsOnlyFrames : (mk 1 .accumulating 0 []).mode = .accumulating ∧
    (mk 1 .accumulating 0 []).wp = 0 ∧ (transcript (expandDfeed [0xDB, 0xDC, 0xC0]) (mk 1 .accumulating 0 [])).map Prod.snd =
      some (List.replicate 2 .ok ++ [.done 1]) := by decide
theorem witness_DecoderResynchronisesAtTheNextDelimiter : (mk 1 .escaped 1 [0x41]).wp ≤ (mk 1 .escaped 1 [0x41]).cap ∧
    [0xDB#8] ≠ [] ∧ ([0xDB#8] : List Byte).length ≤ (mk 1 .escaped 1 [0x41]).cap := by decide
theorem witness_LineByTokensIsLineByBytes : (mk 4 .escaped 1 [0x41]).Inv ∧ (mk 4 .escaped 1 [0x41]).host = [] := by decide

end Sys2Proof.Tests
end

section
/-! PROOFS. The derived widths of R13: `ceilLog2` is Mathlib's `Nat.clog 2`, so each width is the least of at least 1 that
holds its values. -/

namespace Sys2Proof.Config

/-- The search of `ceilLog2` finds the ceiling logarithm of the library: `clog` is in the range searched, satisfies the test,
and nothing below it does. -/
theorem ceilLog2_eq_clog (n : Nat) : ceilLog2 n = Nat.clog 2 n := by
  have hrange : Nat.clog 2 n < n + 1 :=
    Nat.lt_succ_of_le (Nat.clog_le_of_le_pow Nat.lt_two_pow_self.le)
  have hholds : n ≤ 2 ^ Nat.clog 2 n := Nat.le_pow_clog one_lt_two n
  have hleast : ∀ w < Nat.clog 2 n, ¬ n ≤ 2 ^ w := fun w hw =>
    Nat.not_le.mpr (Nat.pow_lt_of_lt_clog hw)
  have hfind : ((List.range (n + 1)).find? fun w => decide (n ≤ 2 ^ w)) = some (Nat.clog 2 n) :=
    List.find?_range_eq_some.mpr
      ⟨decide_eq_true hholds, List.mem_range.mpr hrange, fun w hw => by simpa using hleast w hw⟩
  rw [ceilLog2, hfind, Option.getD_some]

/-- A width of at least 1 is at least `LW` exactly when it holds every length of `0 .. CAP`. -/
theorem lengthWidth_le_iff {cap w : Nat} (hw : 1 ≤ w) : lengthWidth cap ≤ w ↔ cap < 2 ^ w := by
  rw [lengthWidth, ceilLog2_eq_clog, max_le_iff, and_iff_right hw, Nat.clog_le_iff_le_pow one_lt_two,
    Nat.succ_le_iff]

/-- A width of at least 1 is at least `AW` exactly when it holds every index below `CAP`; an empty buffer asks for none. -/
theorem addressWidth_le_iff {cap w : Nat} (hw : 1 ≤ w) : addressWidth cap ≤ w ↔ cap ≤ 2 ^ w := by
  rw [addressWidth, ceilLog2_eq_clog, max_le_iff, and_iff_right hw, Nat.clog_le_iff_le_pow one_lt_two,
    max_le_iff, and_iff_left Nat.one_le_two_pow]

/-- No width is 0 (R13). -/
theorem one_le_lengthWidth (cap : Nat) : 1 ≤ lengthWidth cap := le_max_left _ _

theorem one_le_addressWidth (cap : Nat) : 1 ≤ addressWidth cap := le_max_left _ _

/-- Settles O9: each width holds its values because it is at least itself, and is least by the other direction of the same
equivalence. -/
theorem lengthWidthIsLeastThatHoldsEveryLength : Obligations.LengthWidthIsLeastThatHoldsEveryLength := by
  intro cap
  refine ⟨?lengthsFit, ?indicesFit, ?lengthWidthLeast, ?addressWidthLeast⟩
  case lengthsFit => exact (lengthWidth_le_iff (one_le_lengthWidth cap)).mp le_rfl
  case indicesFit => exact (addressWidth_le_iff (one_le_addressWidth cap)).mp le_rfl
  case lengthWidthLeast => exact fun w hw hfits => (lengthWidth_le_iff hw).mpr hfits
  case addressWidthLeast => exact fun w hw hfits => (addressWidth_le_iff hw).mpr hfits

end Sys2Proof.Config
end

section
/-! PROOFS. What a step is made of, said once: whatever the host's event, a step that goes on is a chain of four small moves,
each inside what R24, R33 and R81 allow. The invariants of every step then ask only that each move keeps them. -/

namespace Sys2Proof.Machine

/-- The small changes every step is made of: the model's own fields are rewritten; `mode` is set, never to `Faulted` (R33);
`wp` is set within `0 .. CAP` (R24); a byte is stored at an index of BUF that exists (R46). -/
inductive Move : State → State → Prop where
  | own (s : State) (host : List HostEvent) (rsp : List Result) (rdata : Option Byte) (draws : Nat) :
      Move s { s with host := host, rsp := rsp, bufRdata := rdata, draws := draws }
  | mode (s : State) {m : Mode} (h : m ≠ .faulted) : Move s { s with mode := m }
  | length (s : State) {n : Nat} (h : n ≤ s.cap) : Move s { s with wp := n }
  | store (s : State) {a : Nat} (h : a < s.cap) (v : Byte) : Move s { s with buf := s.buf.write a v }

/-- Some moves, one after another. -/
abbrev Moves : State → State → Prop := Relation.ReflTransGen Move

/-! ## The shared operations as moves -/

theorem moves_own (s : State) (host : List HostEvent) (rsp : List Result) (rdata : Option Byte) (draws : Nat) :
    Moves s { s with host := host, rsp := rsp, bufRdata := rdata, draws := draws } :=
  .single (.own s host rsp rdata draws)

theorem moves_accept (s : State) : Moves s s.accept := moves_own s s.host [] none s.draws

theorem moves_reply (s : State) (r : Result) : Moves s (s.reply r) :=
  moves_own s s.host (s.rsp ++ [r]) s.bufRdata s.draws

theorem moves_mode (s : State) {m : Mode} (h : m ≠ .faulted) : Moves s { s with mode := m } := .single (.mode s h)

theorem moves_accumulating (s : State) {n : Nat} (h : n ≤ s.cap) : Moves s { s with mode := .accumulating, wp := n } :=
  .head (.length s h) (moves_mode _ nofun)

theorem moves_doReset (s : State) : Moves s s.doReset := moves_accumulating s (Nat.zero_le _)

theorem moves_afterStore {s : State} (h : s.wp < s.cap) (v : Byte) : Moves s (afterStore v s) :=
  .tail (.single (.store s h v)) (.length _ h)

theorem moves_afterStores {vs : List Byte} {s : State} (h : s.wp + vs.length ≤ s.cap) : Moves s (afterStores vs s) := by
  induction vs generalizing s with
  | nil => exact .refl
  | cons v vs ih =>
    simp only [List.length_cons] at h
    exact (moves_afterStore (by omega) v).trans (ih (by simp; omega))

theorem moves_unspecifyBytes (draw : Nat) (l : List Nat) (s : State) :
    Moves s { s with buf := unspecifyBytes s.cap draw s.buf l } := by
  induction l generalizing s with
  | nil => exact .refl
  | cons a l ih =>
    simp only [unspecifyBytes]
    split
    · next ha => exact .head (.store s ha _) (ih { s with buf := s.buf.write a (Config.freeByte draw a) })
    · exact ih s

theorem moves_unspecify (s : State) (l : List Nat) : Moves s (s.unspecify l) :=
  (moves_unspecifyBytes s.draws l s).trans (moves_own _ s.host s.rsp s.bufRdata (s.draws + 1))

theorem moves_spoil (s : State) : Moves s s.spoil :=
  (moves_unspecify s (List.range s.cap)).trans (moves_accumulating _ s.spoil_wp_le)

/-! ## The instructions as moves -/

theorem DbyteCase.moves {b : Byte} {s t : State} (h : DbyteCase b s t) : Moves s t := by
  rcases h with ⟨c, -, rfl⟩ | ⟨-, -, -, rfl⟩ | ⟨-, -, rfl⟩ | ⟨v, ⟨hlt, -⟩, rfl⟩
  · exact (moves_doReset s).trans (moves_reply _ _)
  · exact (moves_doReset s).trans (moves_reply _ _)
  · exact (moves_mode s (m := .escaped) nofun).trans (moves_reply _ _)
  · exact (moves_afterStore hlt v).trans ((moves_mode _ (m := .accumulating) nofun).trans (moves_reply _ _))

theorem dfeed_moves {bs : List Byte} {s t : State} (h : dfeed bs s.accept = .next t) : Moves s t :=
  dfeed_keeps (P := Moves s) (fun _ _ _ hc hu => hu.trans hc.moves) h (moves_accept s)

theorem execEbyte_moves {b : Byte} {s t : State} (h : exec (.ebyte b) s = .next t) : Moves s t := by
  rcases execEbyte_cases h with ⟨hfit, rfl⟩ | ⟨-, rfl⟩
  · have hstores : Moves s.accept (afterStores (stuff b) s.accept) :=
      moves_afterStores (by rw [stuff_length]; exact hfit)
    exact (moves_accept s).trans (hstores.trans (moves_reply _ _))
  · exact (moves_accept s).trans (moves_reply _ _)

theorem frame_length (m : List Byte) : (frame m).length = m.length + specials m + 1 := by
  rw [frame, List.length_append, stuffSeq_length, List.length_singleton]

theorem execEframe_moves {m : List Byte} {s t : State} (h : exec (.eframe m) s = .next t) : Moves s t := by
  rcases execEframe_cases h with ⟨hfit, rfl⟩ | ⟨-, rfl⟩
  · have hstores : Moves s.accept.doReset (afterStores (frame m) s.accept.doReset) :=
      moves_afterStores (by rw [frame_length, State.doReset_wp, Nat.zero_add]; exact hfit)
    exact (moves_accept s).trans ((moves_doReset _).trans (hstores.trans (moves_reply _ _)))
  · exact (moves_accept s).trans ((moves_spoil _).trans (moves_reply _ _))

/-- An instruction that goes on does so by moves, from any state, legal or not. -/
theorem exec_moves {i : Instr} {s t : State} (h : exec i s = .next t) : Moves s t := by
  cases i with
  | reset => cases h; exact (moves_accept s).trans ((moves_doReset _).trans (moves_reply _ _))
  | len => cases h; exact (moves_accept s).trans (moves_reply _ _)
  | dbyte b => exact (moves_accept s).trans (dbyte_cases h).moves
  | ebyte b => exact execEbyte_moves h
  | eframe m => exact execEframe_moves h
  | reserved5 | reserved6 | reserved7 => cases h
  | wireEnd => exact dfeed_moves (bs := [Config.delimiter]) h
  | wireEscEnd => exact dfeed_moves (bs := [Config.escape, Config.escapedDelimiter]) h
  | wireEscEsc => exact dfeed_moves (bs := [Config.escape, Config.escapedEscape]) h
  | wireLiteral v => exact dfeed_moves (bs := [v]) h
  | wireEscInvalid x => exact dfeed_moves (bs := [Config.escape, x]) h

/-! ## The host's events: each runs an instruction, is refused, or is one of the host's own changes -/

theorem runCommand_runs_or_refuses (c : PortCommand) (s : State) :
    (∃ i, runCommand c s = exec i s) ∨ ∃ r, runCommand c s = .refused r := by
  unfold runCommand
  split
  · exact .inl ⟨_, rfl⟩
  · exact .inr ⟨_, rfl⟩

theorem runLine_runs_or_idles (bytes : List Byte) (s : State) :
    (∃ i host, runLine bytes s = exec i { s with host := host }) ∨ runLine bytes s = .next s.accept := by
  unfold runLine
  split
  · exact .inl ⟨_, _, rfl⟩
  · exact .inl ⟨_, s.host, rfl⟩
  · exact .inr rfl

theorem runUnstable_spoils_or_runs (c : PortCommand) (s : State) :
    runUnstable c s = .next (s.accept.spoil.reply (Config.freeResult s.draws)) ∨ runUnstable c s = runCommand c s := by
  unfold runUnstable runCommand
  split
  · exact .inl rfl
  · next hd => simp [hd]
  · next hd => simp [hd]

theorem abandonCommand_refuses_or_resets (c : PortCommand) (s : State) :
    (∃ r, abandonCommand c s = .refused r) ∨
      abandonCommand c s = .next (hardwareReset (s.unspecify (abandonedBytes c.op s))) := by
  unfold abandonCommand
  split
  · exact .inl ⟨_, rfl⟩
  · exact .inr rfl

theorem runCommand_moves {c : PortCommand} {s t : State} (h : runCommand c s = .next t) : Moves s t := by
  rcases runCommand_runs_or_refuses c s with ⟨i, hi⟩ | ⟨r, hr⟩
  · exact exec_moves (hi.symm.trans h)
  · cases hr.symm.trans h

theorem runLine_moves {bytes : List Byte} {s t : State} (h : runLine bytes s = .next t) : Moves s t := by
  rcases runLine_runs_or_idles bytes s with ⟨i, host, hi⟩ | hidle
  · exact (moves_own s host s.rsp s.bufRdata s.draws).trans (exec_moves (hi.symm.trans h))
  · cases hidle.symm.trans h
    exact moves_accept s

theorem runUnstable_moves {c : PortCommand} {s t : State} (h : runUnstable c s = .next t) : Moves s t := by
  rcases runUnstable_spoils_or_runs c s with hspoil | hrun
  · cases hspoil.symm.trans h
    exact (moves_accept s).trans ((moves_spoil _).trans (moves_reply _ _))
  · exact runCommand_moves (hrun.symm.trans h)

theorem moves_hardwareReset (s : State) : Moves s (hardwareReset s) := (moves_accept s).trans (moves_doReset _)

theorem abandonCommand_moves {c : PortCommand} {s t : State} (h : abandonCommand c s = .next t) : Moves s t := by
  rcases abandonCommand_refuses_or_resets c s with ⟨r, hr⟩ | hreset
  · cases hr.symm.trans h
  · cases hreset.symm.trans h
    exact (moves_unspecify s _).trans (moves_hardwareReset _)

theorem moves_hostRead (a : Nat) (s : State) : Moves s (hostRead a s) := by
  unfold hostRead
  split
  · exact moves_own s s.host [] _ s.draws
  · exact moves_own s s.host [] _ (s.draws + 1)

theorem moves_hostWrite (a : Nat) (v : Byte) (s : State) : Moves s (hostWrite a v s) := by
  unfold hostWrite
  split
  · next ha => exact .tail (moves_accept s) (.store s.accept ha v)
  · exact moves_accept s

theorem runWithRead_moves {c : PortCommand} {a : Nat} {s t : State} (h : runWithRead c a s = .next t) : Moves s t := by
  obtain ⟨u, hu, ht⟩ := andThen_eq_next.mp h
  cases ht
  exact (runCommand_moves hu).trans (moves_own u u.host u.rsp _ _)

theorem runWithWrite_moves {c : PortCommand} {a : Nat} {s t : State} (h : runWithWrite c a s = .next t) : Moves s t := by
  obtain ⟨u, hu, ht⟩ := andThen_eq_next.mp h
  cases ht
  exact (runCommand_moves hu).trans (moves_unspecify u [a])

theorem serve_moves {e : HostEvent} {s t : State} (h : serve e s = .next t) : Moves s t := by
  cases e with
  | command c => exact runCommand_moves h
  | line bytes => exact runLine_moves h
  | hardwareReset => cases h; exact moves_hardwareReset s
  | hardwareResetDuring c => exact abandonCommand_moves h
  | readBuf a => cases h; exact moves_hostRead a s
  | writeBuf a v => cases h; exact moves_hostWrite a v s
  | readBufDuring c a => exact runWithRead_moves h
  | writeBufDuring c a => exact runWithWrite_moves h
  | unstableMessage c => exact runUnstable_moves h

/-- A step of a Framer with behaviour is idle or serves the next event (R51, R163). -/
theorem step_idles_or_serves {s : State} (hv : s.variant = .singleEnded) :
    step s = .next s.accept ∨ ∃ e rest, step s = serve e { s with host := rest } := by
  rcases hh : s.host with _ | ⟨e, rest⟩
  · exact .inl (by simp only [step, hv, takeEvent, hh])
  · exact .inr ⟨e, rest, step_of_event hv hh⟩

/-- A step that goes on does so by moves, from any state, legal or not. -/
theorem step_moves {s t : State} (h : step s = .next t) : Moves s t := by
  rcases hv : s.variant with _ | _
  · rcases step_idles_or_serves hv with hidle | ⟨e, rest, hserve⟩
    · cases hidle.symm.trans h
      exact moves_accept s
    · exact (moves_own s rest s.rsp s.bufRdata s.draws).trans (serve_moves (hserve.symm.trans h))
  · simp [step, hv] at h

/-- Whatever each move keeps, a chain of moves keeps. -/
theorem Moves.keeps {P : State → Prop} (move : ∀ s t, Move s t → P s → P t) {s t : State} (h : Moves s t) (hp : P s) :
    P t := by
  induction h with
  | refl => exact hp
  | tail _ hlast ih => exact move _ _ hlast ih

/-- Whatever each move keeps, every step keeps. -/
theorem step_keeps {P : State → Prop} (move : ∀ s t, Move s t → P s → P t) {s t : State} (h : step s = .next t)
    (hp : P s) : P t :=
  (step_moves h).keeps move hp

/-! ## The invariants of every step -/

theorem Move.inv {s t : State} (h : Move s t) (hi : s.Inv) : t.Inv := by
  obtain ⟨hwp, hwf, hbelow, hv⟩ := hi
  cases h with
  | own host rsp rdata draws => exact ⟨hwp, hwf, hbelow, hv⟩
  | mode hm => exact ⟨hwp, hwf, hbelow, hv⟩
  | length hn => exact ⟨hn, hwf, hbelow, hv⟩
  | store ha v => exact ⟨hwp, Memory.write_wf hwf _ v, Memory.write_below hbelow ha v, hv⟩

theorem Move.mode_ne_faulted {s t : State} (h : Move s t) (hs : s.mode ≠ .faulted) : t.mode ≠ .faulted := by
  cases h with
  | own host rsp rdata draws => exact hs
  | mode hm => exact hm
  | length hn => exact hs
  | store ha v => exact hs

/-- Settles O3: every move keeps the invariant, so every step does. -/
theorem stepKeepsTheInvariant : Obligations.StepKeepsTheInvariant :=
  fun _ _ hi h => step_keeps (P := State.Inv) (fun _ _ hmove => hmove.inv) h hi

/-- Settles O5: no move sets `mode` to `Faulted`, so no step does. -/
theorem faultedIsNeverEntered : Obligations.FaultedIsNeverEntered :=
  fun _ _ h hs => step_keeps (P := fun u => u.mode ≠ .faulted) (fun _ _ hmove => hmove.mode_ne_faulted) h hs

/-- A fresh Framer of any capacity is legal: `wp` is 0 and nothing is stored yet (R28). -/
theorem fresh_inv (cap : Nat) : (State.fresh cap).Inv :=
  ⟨Nat.zero_le cap, .nil, nofun, rfl⟩

/-- Settles O2: the Framer after reset is the fresh one of its capacity. -/
theorem resetMeetsTheInvariant : Obligations.ResetMeetsTheInvariant :=
  ⟨fresh_inv Config.resetCapacity, fresh_inv⟩

end Sys2Proof.Machine
end

section
/-! PROOFS. No step from a legal state faults: the decoder goes on from every legal state, and the encoders test for room
before they store. -/

namespace Sys2Proof.Machine

theorem execEbyte_total (b : Byte) (s : State) : ∃ t, exec (.ebyte b) s = .next t := by
  by_cases hfit : s.wp + need b ≤ s.cap
  · exact ⟨_, execEbyte_of_fits hfit⟩
  · exact ⟨_, execEbyte_of_not_fits (by omega)⟩

theorem execEframe_total (m : List Byte) (s : State) : ∃ t, exec (.eframe m) s = .next t := by
  by_cases hfit : m.length + specials m + 1 ≤ s.cap
  · exact ⟨_, execEframe_of_fits hfit⟩
  · exact ⟨_, execEframe_of_not_fits (by omega)⟩

/-- From a legal state an instruction goes on or is refused. -/
theorem exec_goes_on_or_refuses (i : Instr) {s : State} (hi : s.Inv) :
    (∃ t, exec i s = .next t) ∨ ∃ r, exec i s = .refused r := by
  have feed (bs : List Byte) : ∃ t, dfeed bs s.accept = .next t := (dfeed_total (s := s.accept) hi).imp fun _ => And.left
  cases i with
  | reset | len => exact .inl ⟨_, rfl⟩
  | dbyte b => exact .inl ((dbyte_total (s := s.accept) hi.1).imp fun _ => And.left)
  | ebyte b => exact .inl (execEbyte_total b s)
  | eframe m => exact .inl (execEframe_total m s)
  | reserved5 | reserved6 | reserved7 => exact .inr ⟨_, rfl⟩
  | wireEnd | wireEscEnd | wireEscEsc | wireLiteral v | wireEscInvalid x => exact .inl (feed _)

theorem exec_ne_fault (i : Instr) {s : State} (hi : s.Inv) (f : Fault) : exec i s ≠ .fault f := by
  rcases exec_goes_on_or_refuses i hi with ⟨t, h⟩ | ⟨r, h⟩ <;> simp [h]

theorem runCommand_ne_fault (c : PortCommand) {s : State} (hi : s.Inv) (f : Fault) : runCommand c s ≠ .fault f := by
  rcases runCommand_runs_or_refuses c s with ⟨i, h⟩ | ⟨r, h⟩
  · exact h ▸ exec_ne_fault i hi f
  · simp [h]

/-- A sequence whose second part always goes on faults only in its first. -/
theorem andThen_next_ne_fault {α β : Type} {o : Out α} {f : Fault} (g : α → β) (h : o ≠ .fault f) :
    andThen o (fun a => .next (g a)) ≠ .fault f := by
  cases o with
  | next a => simp
  | fault e => simpa using h
  | refused r => simp

theorem serve_ne_fault (e : HostEvent) {s : State} (hi : s.Inv) (f : Fault) : serve e s ≠ .fault f := by
  cases e with
  | command c => exact runCommand_ne_fault c hi f
  | line bytes =>
    rcases runLine_runs_or_idles bytes s with ⟨i, host, h⟩ | h
    · exact fun hf => exec_ne_fault i (s := { s with host := host }) hi f (h.symm.trans hf)
    · simp [serve, h]
  | hardwareReset | readBuf a | writeBuf a v => simp [serve]
  | hardwareResetDuring c =>
    rcases abandonCommand_refuses_or_resets c s with ⟨r, h⟩ | h <;> simp [serve, h]
  | readBufDuring c a => exact andThen_next_ne_fault _ (runCommand_ne_fault c hi f)
  | writeBufDuring c a => exact andThen_next_ne_fault _ (runCommand_ne_fault c hi f)
  | unstableMessage c =>
    rcases runUnstable_spoils_or_runs c s with h | h
    · simp [serve, h]
    · exact fun hf => runCommand_ne_fault c hi f (h.symm.trans hf)

/-- Settles O4: a legal state has the variant with behaviour, and neither the idle step nor any event faults from it. -/
theorem noStepStoresOutsideTheBuffer : Obligations.NoStepStoresOutsideTheBuffer := by
  intro s hi f
  have ⟨_, _, _, hv⟩ := hi
  rcases step_idles_or_serves hv with h | ⟨e, rest, h⟩
  · simp [h]
  · exact h ▸ serve_ne_fault e (s := { s with host := rest }) hi f

end Sys2Proof.Machine
end

section
/-! PROOFS. The access matrix of R26: what each operation leaves alone. -/

namespace Sys2Proof.Machine

/-- Neither END nor ESC is ever a payload byte: they are not ordinary, and no escape code either (R60, R61). -/
theorem not_storesLiteral_of_special {b : Byte} (hb : b = Config.delimiter ∨ b = Config.escape) (s : State) (v : Byte) :
    ¬ storesLiteral b s v := by
  have hord : ¬ ordinary b := by rcases hb with rfl | rfl <;> simp
  have hun : unescape b = none := by rcases hb with rfl | rfl <;> rfl
  rintro ⟨-, ⟨-, h, -⟩ | ⟨-, h⟩⟩
  · exact hord h
  · simp [hun] at h

/-- A DBYTE of END or ESC leaves BUF alone, and `wp` where it was or at 0. -/
theorem DbyteCase.of_special {b : Byte} {s t : State} (h : DbyteCase b s t)
    (hb : b = Config.delimiter ∨ b = Config.escape) : t.buf = s.buf ∧ (t.wp = s.wp ∨ t.wp = 0) := by
  rcases h with ⟨c, -, rfl⟩ | ⟨-, -, -, rfl⟩ | ⟨-, -, rfl⟩ | ⟨v, hv, -⟩
  · exact ⟨rfl, .inr rfl⟩
  · exact ⟨rfl, .inr rfl⟩
  · exact ⟨rfl, .inl rfl⟩
  · exact absurd hv (not_storesLiteral_of_special hb s v)

/-- A DBYTE leaves every index of BUF but the old `wp`. -/
theorem DbyteCase.read_other {b : Byte} {s t : State} (h : DbyteCase b s t) {a : Nat} (ha : a ≠ s.wp) :
    t.buf.read a = s.buf.read a := by
  rcases h.memory with hb | ⟨v, -, hb⟩
  · rw [hb]
  · rw [hb, Memory.read_write_other _ _ ha]

/-- A token of one byte is its DBYTE. -/
theorem dfeed_one_cases {b : Byte} {s t : State} (h : dfeed [b] s.accept = .next t) : DbyteCase b s.accept t := by
  obtain ⟨u, hu, ht⟩ := andThen_eq_next.mp h
  cases ht
  exact dbyte_cases hu

/-- A token of two bytes stores at most at the old `wp`, or at 0 after its ESC raised an error. -/
theorem dfeed_escape_read_other {x : Byte} {s t : State} (h : dfeed [Config.escape, x] s.accept = .next t) {a : Nat}
    (ha : a ≠ s.wp) (h0 : a ≠ 0) : t.buf.read a = s.buf.read a := by
  obtain ⟨u, hu, hrest⟩ := andThen_eq_next.mp h
  obtain ⟨w, hw, ht⟩ := andThen_eq_next.mp hrest
  cases ht
  obtain ⟨hbuf, hwp⟩ := (dbyte_cases hu).of_special (.inr rfl)
  have hau : a ≠ u.wp := by rcases hwp with hwp | hwp <;> rw [hwp] <;> assumption
  rw [(dbyte_cases hw).read_other hau, hbuf, State.accept_buf]

/-- Stores leave every index they do not reach. -/
theorem afterStores_read_other (vs : List Byte) (s : State) {a : Nat} (h : a < s.wp ∨ s.wp + vs.length ≤ a) :
    (afterStores vs s).buf.read a = s.buf.read a :=
  h.elim (afterStores_read_below vs s) (afterStores_read_above vs s)

theorem need_le_two (b : Byte) : need b ≤ 2 := by
  unfold need
  split <;> decide

/-- EBYTE leaves `mode` and the draws, and every index of BUF but `wp` and `wp + 1` (R26). -/
theorem execEbyte_frame {b : Byte} {s t : State} (h : exec (.ebyte b) s = .next t) :
    t.mode = s.mode ∧ (∀ a, a ≠ s.wp → a ≠ s.wp + 1 → t.buf.read a = s.buf.read a) ∧ t.draws = s.draws := by
  rcases execEbyte_cases h with ⟨-, rfl⟩ | ⟨-, rfl⟩
  · refine ⟨by simp, fun a ha ha' => ?_, by simp⟩
    have hneed := need_le_two b
    have hout : a < s.accept.wp ∨ s.accept.wp + (stuff b).length ≤ a := by
      rw [stuff_length, State.accept_wp]
      omega
    exact afterStores_read_other (stuff b) s.accept hout
  · exact ⟨rfl, fun _ _ _ => rfl, rfl⟩

/-- EFRAME leaves every index from CAP on, and `mode` as reset (R26, R97). -/
theorem execEframe_frame {m : List Byte} {s t : State} (h : exec (.eframe m) s = .next t) :
    t.mode = .accumulating ∧ ∀ a, s.cap ≤ a → t.buf.read a = s.buf.read a := by
  rcases execEframe_cases h with ⟨hfit, rfl⟩ | ⟨-, rfl⟩
  · refine ⟨by simp, fun a ha => afterStores_read_above (frame m) s.accept.doReset ?_⟩
    rw [frame_length, State.doReset_wp]
    omega
  · exact ⟨rfl, fun a ha => by
      rw [encodeFailure, raiseEncodeCapacity, State.reply_buf, State.spoil_read, if_neg (by simpa using ha),
        State.accept_buf]⟩

/-- Feeding bytes leaves the configuration, the pending events and the draws. -/
theorem dfeed_frame {bs : List Byte} {s t : State} (h : dfeed bs s = .next t) :
    (t.cap = s.cap ∧ t.variant = s.variant ∧ t.host = s.host) ∧ t.draws = s.draws := by
  refine dfeed_keeps (P := fun u => (u.cap = s.cap ∧ u.variant = s.variant ∧ u.host = s.host) ∧ u.draws = s.draws)
    (fun b u w hc hu => ?_) h ⟨⟨rfl, rfl, rfl⟩, rfl⟩
  obtain ⟨hcap, hvar, hhost, hdraws, -⟩ := hc.frame
  rwa [hcap, hvar, hhost, hdraws]

/-- No operation writes CAP, VARIANT or the pending events (R26, R81). -/
theorem exec_keeps_configuration {i : Instr} {s t : State} (h : exec i s = .next t) :
    t.cap = s.cap ∧ t.variant = s.variant ∧ t.host = s.host := by
  cases i with
  | reset | len => cases h; exact ⟨rfl, rfl, rfl⟩
  | dbyte b =>
    obtain ⟨hcap, hvar, hhost, -⟩ := (dbyte_cases h).frame
    exact ⟨hcap, hvar, hhost⟩
  | ebyte b => rcases execEbyte_cases h with ⟨-, rfl⟩ | ⟨-, rfl⟩ <;> simp [raiseEncodeCapacity]
  | eframe m => rcases execEframe_cases h with ⟨-, rfl⟩ | ⟨-, rfl⟩ <;> simp [encodeFailure, raiseEncodeCapacity]
  | reserved5 | reserved6 | reserved7 => cases h
  | wireEnd | wireEscEnd | wireEscEsc | wireLiteral v | wireEscInvalid x => exact (dfeed_frame h).1

/-- Settles O46: the configuration is kept by every operation, and each row of the matrix by its operation's own law. -/
theorem operationsTouchOnlyTheirState : Obligations.OperationsTouchOnlyTheirState := by
  intro i s t h
  obtain ⟨hcap, hvar, hhost⟩ := exec_keeps_configuration h
  refine ⟨hcap, hvar, hhost, ?_⟩
  cases i with
  | reset => cases h; exact ⟨rfl, rfl⟩
  | len => cases h; exact ⟨rfl, rfl, rfl, rfl⟩
  | dbyte b =>
    obtain ⟨-, -, -, hdraws, -⟩ := (dbyte_cases h).frame
    exact ⟨fun a ha => (dbyte_cases h).read_other ha, hdraws⟩
  | ebyte b => exact execEbyte_frame h
  | eframe m => exact execEframe_frame h
  | reserved5 | reserved6 | reserved7 => cases h
  | wireEnd => exact ⟨((dfeed_one_cases h).of_special (.inl rfl)).1, (dfeed_frame h).2⟩
  | wireLiteral v => exact ⟨fun a ha => (dfeed_one_cases h).read_other ha, (dfeed_frame h).2⟩
  | wireEscEnd | wireEscEsc | wireEscInvalid x =>
    exact ⟨fun a ha h0 => dfeed_escape_read_other h ha h0, (dfeed_frame h).2⟩

end Sys2Proof.Machine
end

section
/-! PROOFS. The outputs of the last step are not read (R30): every operation and every host event begins by clearing them, so
clearing them first changes nothing. -/

namespace Sys2Proof.Machine

theorem exec_accept (i : Instr) (s : State) : exec i s.accept = exec i s := by
  cases i <;> rfl

theorem runCommand_accept (c : PortCommand) (s : State) : runCommand c s.accept = runCommand c s := by
  simp only [runCommand, exec_accept]

theorem runLine_accept (bytes : List Byte) (s : State) : runLine bytes s.accept = runLine bytes s := by
  unfold runLine
  split
  · next i rest _ => exact exec_accept i { s with host := pushLine rest s.host }
  · exact exec_accept _ s
  · rfl

theorem serve_accept (e : HostEvent) (s : State) : serve e s.accept = serve e s := by
  cases e with
  | command c => exact runCommand_accept c s
  | line bytes => exact runLine_accept bytes s
  | hardwareReset | hardwareResetDuring c | readBuf a | writeBuf a v => rfl
  | readBufDuring c a => simp only [serve, runWithRead, runCommand_accept]
  | writeBufDuring c a => simp only [serve, runWithWrite, runCommand_accept]
  | unstableMessage c => simp only [serve, runUnstable, exec_accept, State.accept_accept, State.accept_draws]

theorem takeEvent_accept (s : State) : takeEvent s.accept = takeEvent s := by
  unfold takeEvent
  rw [State.accept_host]
  split
  · rfl
  · next e rest _ => exact serve_accept e { s with host := rest }

theorem step_accept (s : State) : step s.accept = step s := by
  simp only [step, State.accept_variant, takeEvent_accept]

/-- Settles O48: two states that differ in the outputs alone become the same state when the outputs are cleared. -/
theorem outputsAreNeverRead : Obligations.OutputsAreNeverRead := by
  intro s rsp rdata
  have hsame : ({ s with rsp := rsp, bufRdata := rdata } : State).accept = s.accept := rfl
  rw [← step_accept, hsame, step_accept]

end Sys2Proof.Machine
end

section
/-! PROOFS. BUF's memory at the host's side: the law of a store, the host's reads and writes between operations (R48, R77),
and its access during one (R42, R48, U6). -/

namespace Sys2Proof.Machine

/-- Settles O8: each half is a law of BUF's memory. -/
theorem storeChangesOneByteOfBuf : Obligations.StoreChangesOneByteOfBuf :=
  fun m a c v => ⟨m.read_write a c v, fun hwf => Memory.write_wf hwf a v⟩

theorem storesAt_singleton {s t : State} {a : Nat} {v : Byte} (h : t.buf = s.buf.write a v) : storesAt s t a [v] := by
  constructor
  · intro i hi
    obtain rfl : i = 0 := Nat.lt_one_iff.mp hi
    rw [h, Nat.add_zero, Memory.read_write_same, List.getElem_cons_zero]
  · intro c hc
    have hne : c ≠ a := by
      rw [List.length_singleton] at hc
      omega
    rw [h, Memory.read_write_other _ _ hne]

theorem hostRead_of_lt {a : Nat} {s : State} (h : a < s.cap) :
    hostRead a s = { s.accept with bufRdata := some (s.buf.read a) } := if_pos h

theorem hostRead_of_le {a : Nat} {s : State} (h : s.cap ≤ a) :
    hostRead a s = { s.accept with bufRdata := some (Config.freeByte s.draws a), draws := s.draws + 1 } :=
  if_neg (Nat.not_lt.mpr h)

theorem hostWrite_of_lt {a : Nat} {s : State} (h : a < s.cap) (v : Byte) :
    hostWrite a v s = { s.accept with buf := s.buf.write a v } := if_pos h

theorem hostWrite_of_le {a : Nat} {s : State} (h : s.cap ≤ a) (v : Byte) : hostWrite a v s = s.accept :=
  if_neg (Nat.not_lt.mpr h)

/-- Settles O52: the step serves the access, which splits at CAP. -/
theorem hostReadsAndWritesBuf : Obligations.HostReadsAndWritesBuf := by
  intro s a rest hv
  refine ⟨fun hread => ?read, fun v hwrite => ?write⟩
  case read =>
    have hstep := step_of_event hv hread
    exact ⟨fun ha => hstep.trans (congrArg Host.Outcome.next (hostRead_of_lt ha)),
      fun ha => hstep.trans (congrArg Host.Outcome.next (hostRead_of_le ha))⟩
  case write =>
    have hstep := step_of_event hv hwrite
    refine ⟨fun ha => ?inside, fun ha => ?outside⟩
    case inside =>
      have hwritten := hostWrite_of_lt (s := { s with host := rest }) ha v
      exact ⟨_, hstep.trans (congrArg Host.Outcome.next hwritten), storesAt_singleton rfl, rfl⟩
    case outside =>
      have hkept := hostWrite_of_le (s := { s with host := rest }) ha v
      exact hstep.trans (congrArg Host.Outcome.next hkept)

theorem runCommand_of_decoded {c : PortCommand} {i : Instr} (hd : decodePort c = .ok i) (s : State) :
    runCommand c s = exec i s := by
  rw [runCommand, hd]

theorem runUnstable_of_eframe {c : PortCommand} {msg : List Byte} (hd : decodePort c = .ok (.eframe msg)) (s : State) :
    runUnstable c s = .next (s.accept.spoil.reply (Config.freeResult s.draws)) := by
  rw [runUnstable, hd]

theorem runUnstable_of_ne_eframe {c : PortCommand} {i : Instr} (hd : decodePort c = .ok i) (hi : ∀ msg, i ≠ .eframe msg)
    (s : State) : runUnstable c s = exec i s := by
  unfold runUnstable
  rw [hd]
  split
  · next msg hmsg => exact absurd (Except.ok.inj hmsg) (hi msg)
  · next j _ hj => rw [Except.ok.inj hj]
  · next e he => cases he

/-- Leaving one byte unspecified: the draw's free value there if BUF has the index, every other byte as before. -/
theorem State.unspecify_one_read (s : State) (a x : Nat) :
    (s.unspecify [a]).buf.read x = if x = a ∧ a < s.cap then Config.freeByte s.draws a else s.buf.read x := by
  rw [State.unspecify_buf, unspecifyBytes_read]
  by_cases hx : x = a <;> simp [hx]

/-- Settles O54: the step serves the event, which runs the decoded instruction; the free values are those of one draw. -/
theorem hostAccessDuringAnOperation : Obligations.HostAccessDuringAnOperation := by
  intro s c i a rest hv hd
  refine ⟨fun t hh ht => ?readDuring, fun t hh ht => ?writeDuring, fun hh hi => ?unstableOther,
    fun msg hh hi => ?unstableEframe⟩
  case readDuring =>
    rw [step_of_event hv hh, serve, runWithRead, runCommand_of_decoded hd, ht, andThen_next]
  case writeDuring =>
    rw [step_of_event hv hh, serve, runWithWrite, runCommand_of_decoded hd, ht, andThen_next]
    obtain ⟨hcap, -⟩ := exec_keeps_configuration ht
    exact ⟨_, rfl, rfl, hcap ▸ t.unspecify_one_read a⟩
  case unstableOther =>
    rw [step_of_event hv hh, serve, runUnstable_of_ne_eframe hd hi]
  case unstableEframe =>
    subst hi
    rw [step_of_event hv hh, serve, runUnstable_of_eframe hd]
    exact ⟨_, rfl, State.spoil_wp_le _, State.spoil_read _, rfl⟩

end Sys2Proof.Machine
end

section
/-! PROOFS. No operation's answer depends on what BUF holds (R45). The property is carried through the shapes the operations
are built of: an answer, a test, and two parts one after the other. -/

namespace Sys2Proof.Machine

/-- With any other contents of BUF, `f` goes on to the same state but for BUF. -/
def BufBlind (f : State → Out State) : Prop :=
  ∀ s t m, f s = .next t → ∃ m', f { s with buf := m } = .next { t with buf := m' }

/-! ## The shapes -/

/-- An answer, whose fields but BUF are computed from the fields but BUF. -/
theorem BufBlind.next {g : State → State} (h : ∀ s m, ∃ m', g { s with buf := m } = { g s with buf := m' }) :
    BufBlind fun s => .next (g s) := by
  rintro s t m ⟨⟩
  exact (h s m).imp fun _ hm' => congrArg _ hm'

/-- A test that does not read BUF. -/
theorem BufBlind.ite {p : State → Prop} [DecidablePred p] {f g : State → Out State}
    (hp : ∀ s m, p { s with buf := m } ↔ p s) (hf : BufBlind f) (hg : BufBlind g) :
    BufBlind fun s => if p s then f s else g s := by
  intro s t m h
  by_cases hs : p s
  · simp only [if_pos hs] at h
    simp only [if_pos ((hp s m).mpr hs)]
    exact hf s t m h
  · simp only [if_neg hs] at h
    simp only [if_neg (mt (hp s m).mp hs)]
    exact hg s t m h

theorem BufBlind.andThen {f g : State → Out State} (hf : BufBlind f) (hg : BufBlind g) :
    BufBlind fun s => andThen (f s) g := by
  intro s t m h
  obtain ⟨u, hu, ht⟩ := andThen_eq_next.mp h
  obtain ⟨mu, hmu⟩ := hf s u m hu
  obtain ⟨mt, hmt⟩ := hg u t mu ht
  exact ⟨mt, andThen_eq_next.mpr ⟨_, hmu, hmt⟩⟩

theorem BufBlind.accepted {f : State → Out State} (hf : BufBlind f) : BufBlind fun s => f s.accept :=
  fun s t m h => hf s.accept t m h

/-! ## The decoder -/

theorem bufBlind_append (v : Byte) : BufBlind (append v) :=
  .ite (fun _ _ => .rfl) (.next fun _ _ => ⟨_, rfl⟩) fun _ _ _ h => nomatch h

theorem bufBlind_acceptPayload (v : Byte) : BufBlind (acceptPayload v) :=
  .ite (fun _ _ => .rfl) (.next fun _ _ => ⟨_, rfl⟩) ((bufBlind_append v).andThen (.next fun _ _ => ⟨_, rfl⟩))

theorem bufBlind_dbyteAccumulating (b : Byte) : BufBlind (dbyteAccumulating b) := by
  refine .ite (fun _ _ => .rfl) ?delimiter (.ite (fun _ _ => .rfl) ?escape ?ordinary)
  case delimiter => exact .ite (fun _ _ => .rfl) (.next fun _ _ => ⟨_, rfl⟩) (.next fun _ _ => ⟨_, rfl⟩)
  case escape => exact .next fun _ _ => ⟨_, rfl⟩
  case ordinary => exact bufBlind_acceptPayload b

theorem bufBlind_dbyteEscaped (b : Byte) : BufBlind (dbyteEscaped b) := by
  refine .ite (fun _ _ => .rfl) ?delimiter ?code
  case delimiter => exact .next fun _ _ => ⟨_, rfl⟩
  case code =>
    rcases unescape b with _ | lit
    · exact .next fun _ _ => ⟨_, rfl⟩
    · exact bufBlind_acceptPayload lit

/-- The three modes as two tests. -/
theorem dbyte_eq_ite (b : Byte) : dbyte b = fun s =>
    if s.mode = .faulted then .next (raiseDecodeError .faultReentry s)
    else if s.mode = .accumulating then dbyteAccumulating b s else dbyteEscaped b s := by
  funext s
  rcases hm : s.mode with _ | _ | _ <;> simp [dbyte, hm]

theorem bufBlind_dbyte (b : Byte) : BufBlind (dbyte b) := by
  rw [dbyte_eq_ite]
  exact .ite (fun _ _ => .rfl) (.next fun _ _ => ⟨_, rfl⟩)
    (.ite (fun _ _ => .rfl) (bufBlind_dbyteAccumulating b) (bufBlind_dbyteEscaped b))

theorem bufBlind_dfeed (bs : List Byte) : BufBlind (dfeed bs) := by
  induction bs with
  | nil => exact .next fun _ _ => ⟨_, rfl⟩
  | cons b bs ih => exact (bufBlind_dbyte b).andThen ih

/-! ## The encoders -/

/-- What stores leave but for BUF does not depend on BUF. -/
theorem afterStores_reply_withBuf (vs : List Byte) (r : Result) (s : State) (m : Memory) :
    ∃ m', (afterStores vs { s with buf := m }).reply r = { (afterStores vs s).reply r with buf := m' } := by
  rw [afterStores_fields vs s, afterStores_fields vs { s with buf := m }]
  exact ⟨_, rfl⟩

theorem bufBlind_ebyte (b : Byte) : BufBlind (exec (.ebyte b)) := by
  intro s t m h
  rcases execEbyte_cases h with ⟨hfit, rfl⟩ | ⟨hfull, rfl⟩
  · obtain ⟨m', hm'⟩ := afterStores_reply_withBuf (stuff b) .ok s.accept m
    exact ⟨m', (execEbyte_of_fits (s := { s with buf := m }) hfit).trans (congrArg Host.Outcome.next hm')⟩
  · exact ⟨m, execEbyte_of_not_fits (s := { s with buf := m }) hfull⟩

theorem bufBlind_eframe (msg : List Byte) : BufBlind (exec (.eframe msg)) := by
  intro s t m h
  rcases execEframe_cases h with ⟨hfit, rfl⟩ | ⟨hfull, rfl⟩
  · obtain ⟨m', hm'⟩ := afterStores_reply_withBuf (frame msg) _ s.accept.doReset m
    exact ⟨m', (execEframe_of_fits (s := { s with buf := m }) hfit).trans (congrArg Host.Outcome.next hm')⟩
  · exact ⟨_, execEframe_of_not_fits (s := { s with buf := m }) hfull⟩

/-- Settles O47: each operation is built of the shapes, or answers by its encoder's law. -/
theorem bufContentsDoNotMatter : Obligations.BufContentsDoNotMatter := by
  intro i
  show BufBlind (exec i)
  cases i with
  | reset | len => exact .next fun _ _ => ⟨_, rfl⟩
  | dbyte b => exact (bufBlind_dbyte b).accepted
  | ebyte b => exact bufBlind_ebyte b
  | eframe msg => exact bufBlind_eframe msg
  | reserved5 | reserved6 | reserved7 => exact fun _ _ _ h => nomatch h
  | wireEnd | wireEscEnd | wireEscEsc | wireLiteral v | wireEscInvalid x => exact (bufBlind_dfeed _).accepted

end Sys2Proof.Machine
end

section
/-! PROOFS. The two encodings: the command word and its fields (R69), the tokens of the wire (R62, R64, R65), and that each
instruction is what its encoding decodes to. -/

namespace Sys2Proof

/-- Settles O10: each instruction's own law of the family DecodeEncode. -/
theorem decodeOfEncodeIsTheInstruction : Obligations.DecodeOfEncodeIsTheInstruction := by
  intro i
  cases i with
  | reset => exact Laws.DecodeEncode.reset
  | len => exact Laws.DecodeEncode.len
  | dbyte b => exact Laws.DecodeEncode.dbyte b
  | ebyte b => exact Laws.DecodeEncode.ebyte b
  | eframe msg => exact Laws.DecodeEncode.eframe msg
  | reserved5 => exact Laws.DecodeEncode.reserved5
  | reserved6 => exact Laws.DecodeEncode.reserved6
  | reserved7 => exact Laws.DecodeEncode.reserved7
  | wireEnd => exact Laws.DecodeEncode.wireEnd
  | wireEscEnd => exact Laws.DecodeEncode.wireEscEnd
  | wireEscEsc => exact Laws.DecodeEncode.wireEscEsc
  | wireLiteral v => exact Laws.DecodeEncode.wireLiteral v
  | wireEscInvalid x => exact Laws.DecodeEncode.wireEscInvalid x

/-! ## The command word -/

/-- The mask of the table keeps `op` and clears `data` (R69). -/
theorem commandWord_and_mask (op : BitVec 3) (d : Byte) : commandWord op d &&& 0x700#11 = commandWord op 0 := by
  have hmask : 0x700#11 = BitVec.allOnes 3 ++ 0#8 := rfl
  rw [commandWord, hmask, BitVec.and_append, BitVec.and_allOnes, BitVec.and_zero]
  rfl

/-- A masked command word equals a row's match exactly when `op` is the row's (R69). -/
theorem PortCommand.word_and_mask_eq_iff {c : PortCommand} {op : BitVec 3} :
    c.word &&& 0x700#11 = commandWord op 0 ↔ c.op = op := by
  rw [← c.commandWord_op_data, commandWord_and_mask, commandWord, commandWord, BitVec.append_left_inj]

theorem PortCommand.data_eq_setWidth (c : PortCommand) : c.data = c.word.setWidth 8 :=
  (BitVec.setWidth_eq_extractLsb' (by decide)).symm

/-- `op` is what a shift by the width of `data` leaves of the command word (R69). -/
theorem PortCommand.op_toNat (c : PortCommand) : c.op.toNat = (c.word >>> 8).toNat := by
  have hlt := c.word.isLt
  rw [PortCommand.op, BitVec.extractLsb'_toNat, BitVec.toNat_ushiftRight, Nat.shiftRight_eq_div_pow]
  omega

/-- The fields of a command word do not overlap: the word is `op * 0x100 + data`. -/
theorem commandWord_toNat (op : BitVec 3) (d : Byte) : (commandWord op d).toNat = op.toNat * 256 + d.toNat := by
  rw [commandWord, BitVec.toNat_append, ← Nat.shiftLeft_add_eq_or_of_lt d.isLt, Nat.shiftLeft_eq]

theorem commandWord_eq_add (op : BitVec 3) (d : Byte) : commandWord op d = commandWord op 0 + d.setWidth 11 := by
  apply BitVec.eq_of_toNat_eq
  have hop := op.isLt
  have hd := d.isLt
  have hzero : (0 : Byte).toNat = 0 := rfl
  rw [BitVec.toNat_add, BitVec.toNat_setWidth, commandWord_toNat, commandWord_toNat, hzero]
  omega

/-! ## The rows of the command port (R69, R70) -/

section
variable {c : PortCommand}

theorem decodePort_reset (h : c.op = 0) : decodePort c = .ok .reset := by simp [decodePort, h]
theorem decodePort_len (h : c.op = 1) : decodePort c = .ok .len := by simp [decodePort, h]
theorem decodePort_dbyte (h : c.op = 2) : decodePort c = .ok (.dbyte c.data) := by simp [decodePort, h]
theorem decodePort_ebyte (h : c.op = 3) : decodePort c = .ok (.ebyte c.data) := by simp [decodePort, h]
theorem decodePort_eframe (h : c.op = 4) (hlen : c.len ≤ c.msg.length) :
    decodePort c = .ok (.eframe (c.msg.take c.len)) := by simp [decodePort, h, hlen]
theorem decodePort_reserved5 (h : c.op = 5) : decodePort c = .ok .reserved5 := by simp [decodePort, h]
theorem decodePort_reserved6 (h : c.op = 6) : decodePort c = .ok .reserved6 := by simp [decodePort, h]
theorem decodePort_reserved7 (h : c.op = 7) : decodePort c = .ok .reserved7 := by simp [decodePort, h]

end

/-- Settles O12: the masked word names `op`, which selects the row; a canonical word is its row's match plus `data`. -/
theorem commandWordSelectsTheOperation : Obligations.CommandWordSelectsTheOperation := by
  refine ⟨fun c => ?rows, rfl, rfl, fun b => ⟨?dbyteWord, ?ebyteWord⟩, fun msg => rfl⟩
  case rows =>
    have hop {op : BitVec 3} : c.word &&& 0x700#11 = commandWord op 0 → c.op = op :=
      PortCommand.word_and_mask_eq_iff.mp
    rw [← c.data_eq_setWidth]
    exact ⟨fun h => decodePort_reset (hop h), fun h => decodePort_len (hop h), fun h => decodePort_dbyte (hop h),
      fun h => decodePort_ebyte (hop h), fun h hlen => decodePort_eframe (hop h) hlen,
      fun h => decodePort_reserved5 (hop h), fun h => decodePort_reserved6 (hop h),
      fun h => decodePort_reserved7 (hop h)⟩
  case dbyteWord => rw [encode, commandWord_eq_add]; rfl
  case ebyteWord => rw [encode, commandWord_eq_add]; rfl

/-! ## The tokens of the wire -/

/-- Settles O11: the token is an end, a literal, or ESC and its second byte; what a lone ESC or no byte answers is no token. -/
theorem tokenIsExactlyTheBytesItTook : Obligations.TokenIsExactlyTheBytesItTook := by
  intro bytes i rest h
  rcases bytes with _ | ⟨b, bs⟩
  · cases h
  by_cases hd : b = Config.delimiter
  · subst hd
    rw [decodeToken_delimiter] at h
    cases h
    exact ⟨rfl, _, rfl, rfl⟩
  by_cases he : b = Config.escape
  · subst he
    rcases bs with _ | ⟨x, bs⟩
    · cases h
    rw [decodeToken_escape] at h
    by_cases h1 : x = Config.escapedDelimiter
    · rw [if_pos h1] at h
      cases h
      exact ⟨rfl, _, rfl, h1 ▸ rfl⟩
    by_cases h2 : x = Config.escapedEscape
    · rw [if_neg h1, if_pos h2] at h
      cases h
      exact ⟨rfl, _, rfl, h2 ▸ rfl⟩
    · rw [if_neg h1, if_neg h2] at h
      cases h
      exact ⟨decide_eq_true (not_or.mpr ⟨h1, h2⟩), _, rfl, rfl⟩
  · rw [decodeToken_literal ⟨hd, he⟩] at h
    cases h
    exact ⟨decide_eq_true ⟨hd, he⟩, _, rfl, rfl⟩

/-- Settles O13: each word is one of the eleven written out, and the decoder computes on it. -/
theorem writtenOutWordsDecode : Obligations.WrittenOutWordsDecode :=
  ⟨rfl, rfl, rfl, rfl, rfl, rfl, rfl, rfl, rfl, rfl, rfl⟩

end Sys2Proof
end

section
/-! PROOFS. What a step does with a command, a line and a word of the opcode table (R64, R69, R70, R76), and how a result is
presented (R72). -/

namespace Sys2Proof.Machine

/-- A command with one of the codes 5 to 7 is refused by that code (R70). -/
theorem runCommand_of_reserved {c : PortCommand} (h : 5 ≤ c.op.toNat) (s : State) :
    runCommand c s = .refused (.reservedCommand c.op.toNat) := by
  have hcode : c.op = 5 ∨ c.op = 6 ∨ c.op = 7 := by bv_omega
  rcases hcode with hop | hop | hop
  · rw [runCommand_of_decoded (decodePort_reserved5 hop), hop]; rfl
  · rw [runCommand_of_decoded (decodePort_reserved6 hop), hop]; rfl
  · rw [runCommand_of_decoded (decodePort_reserved7 hop), hop]; rfl

/-- Settles O14: each reserved instruction is refused by definition, and a step runs the command it serves. -/
theorem reservedCommandsAreRefused : Obligations.ReservedCommandsAreRefused := by
  refine ⟨fun s => ⟨rfl, rfl, rfl⟩, fun s c rest hv hh hop => ?_⟩
  rw [← c.op_toNat] at hop ⊢
  rw [step_of_event hv hh, serve, runCommand_of_reserved hop]

theorem runLine_of_token {bytes left : List Byte} {i : Instr} (h : decodeToken bytes = .ok (i, left)) (s : State) :
    runLine bytes s = exec i { s with host := pushLine left s.host } := by
  rw [runLine, h]

/-- Bytes are one instruction exactly when they are its token with nothing after it. -/
theorem decode_wire_eq_ok {bytes : List Byte} {i : Instr} :
    decode (.wire bytes) = .ok i ↔ decodeToken bytes = .ok (i, []) := by
  rcases hd : decodeToken bytes with e | ⟨j, _ | ⟨b, left⟩⟩ <;> simp [decode, hd]

theorem decodeTableWord_eq_some {nbits w : Nat} {i : Instr} :
    decodeTableWord nbits w = some i ↔ decode (commandOfTableWord nbits w) = .ok i := by
  unfold decodeTableWord
  rcases decode (commandOfTableWord nbits w) with e | j <;> simp

/-- The event of an encoded instruction runs the instruction. -/
theorem serve_eventOf_of_decoded {cmd : Command} {i : Instr} (h : decode cmd = .ok i) (s : State) :
    serve (eventOf cmd) s = exec i s := by
  cases cmd with
  | port c => exact runCommand_of_decoded h s
  | wire bytes => exact runLine_of_token (decode_wire_eq_ok.mp h) s

/-- Settles O15: a step serves the next event, which runs what it decodes to. -/
theorem stepRunsTheDecodedInstruction : Obligations.StepRunsTheDecodedInstruction := by
  refine ⟨fun s c i rest hv hh hd => ?command, fun s bytes i left rest hv hh hd => ?line,
    fun s nbits w i hv hd => ?tableWord⟩
  case command => rw [step_of_event hv hh, serve, runCommand_of_decoded hd]
  case line => rw [step_of_event hv hh, serve, runLine_of_token hd]
  case tableWord =>
    rw [step_of_event (s := s.withFetchWord nbits w) hv rfl]
    exact serve_eventOf_of_decoded (decodeTableWord_eq_some.mp hd) s

theorem causeCode_le_four (c : Cause) : (causeCode c).toNat ≤ 4 := by
  cases c <;> decide

/-- Settles O16: the words are the table's, and the last clause is read off them result by result. -/
theorem resultWordOfEveryResult : Obligations.ResultWordOfEveryResult := by
  refine ⟨rfl, fun n => ⟨rfl, rfl⟩, rfl, rfl, rfl, rfl, fun r => ?_⟩
  cases r with
  | ok | done n | val n => exact ⟨by simp [resultWord], Nat.zero_le 4⟩
  | err c => exact ⟨by simp [resultWord], causeCode_le_four c⟩

end Sys2Proof.Machine
end

section
/-! PROOFS. The results of each operation (R73) and their software view (R74). -/

namespace Sys2Proof.Machine

/-- The results of a DBYTE: only a completed frame has a length, which is the payload accumulated (R112). -/
theorem DbyteCase.result {b : Byte} {s t : State} (h : DbyteCase b s t) :
    t.rsp = s.rsp ++ [.ok] ∨ (0 < s.wp ∧ t.rsp = s.rsp ++ [.done s.wp]) ∨ ∃ c, t.rsp = s.rsp ++ [.err c] := by
  rcases h with ⟨c, -, rfl⟩ | ⟨-, -, hwp, rfl⟩ | ⟨-, -, rfl⟩ | ⟨v, -, rfl⟩
  · exact .inr (.inr ⟨c, rfl⟩)
  · exact .inr (.inl ⟨hwp, rfl⟩)
  · exact .inl rfl
  · exact .inl rfl

theorem execDbyte_result {b : Byte} {s t : State} (h : exec (.dbyte b) s = .next t) (hw : s.wp ≤ s.cap) :
    t.rsp = [.ok] ∨ (∃ n, 1 ≤ n ∧ n ≤ s.cap ∧ t.rsp = [.done n]) ∨ ∃ c, t.rsp = [.err c] :=
  (dbyte_cases h).result.imp_right (Or.imp_left fun ⟨hpos, hdone⟩ => ⟨s.wp, hpos, hw, hdone⟩)

theorem execEbyte_result {b : Byte} {s t : State} (h : exec (.ebyte b) s = .next t) :
    t.rsp = [.ok] ∨ t.rsp = [.err .capacity] := by
  rcases execEbyte_cases h with ⟨-, rfl⟩ | ⟨-, rfl⟩
  · exact .inl (by simp)
  · exact .inr rfl

theorem execEframe_result {m : List Byte} {s t : State} (h : exec (.eframe m) s = .next t) :
    (∃ n, 1 ≤ n ∧ n ≤ s.cap ∧ t.rsp = [.done n]) ∨ t.rsp = [.err .capacity] := by
  rcases execEframe_cases h with ⟨hfit, rfl⟩ | ⟨-, rfl⟩
  · exact .inl ⟨m.length + specials m + 1, Nat.succ_le_succ (Nat.zero_le _), hfit, by simp⟩
  · exact .inr rfl

/-- Settles O43: RESET and LEN answer by definition, the others by their results' laws. -/
theorem resultsOfEachOperation : Obligations.ResultsOfEachOperation := by
  intro s t hw
  refine ⟨fun h => ?reset, fun h => ?len, fun b h => execDbyte_result h hw, fun b h => execEbyte_result h,
    fun msg h => execEframe_result h⟩
  case reset => cases h; rfl
  case len => cases h; exact ⟨s.wp, hw, rfl⟩

/-- Settles O44: each result an operation can return has its number, and a completed frame's is its positive length. -/
theorem softwareViewSigns : Obligations.SoftwareViewSigns := by
  intro s t r hw hr
  refine ⟨fun b h => ?dbyte, fun msg h => ?eframe⟩
  case dbyte =>
    have hres := execDbyte_result h hw
    simp only [hr, List.cons.injEq, and_true] at hres
    rcases hres with rfl | ⟨n, (hpos : 0 < n), -, rfl⟩ | ⟨c, rfl⟩
    · exact ⟨0, rfl, by simp⟩
    · exact ⟨n, rfl, by simp [hpos, hpos.ne']⟩
    · exact ⟨-1, rfl, by simp⟩
  case eframe =>
    have hres := execEframe_result h
    simp only [hr, List.cons.injEq, and_true] at hres
    rcases hres with ⟨n, (hpos : 0 < n), -, rfl⟩ | rfl
    · exact ⟨n, rfl, by simp [hpos.ne']⟩
    · exact ⟨0, rfl, by simp⟩

end Sys2Proof.Machine
end

section
/-! PROOFS. The tokens of the wire as the DBYTEs of their bytes (R79, R127), in every legal state. -/

namespace Sys2Proof.Machine

theorem DbyteCase.wp_le {b : Byte} {s t : State} (h : DbyteCase b s t) (hw : s.wp ≤ s.cap) : t.wp ≤ t.cap := by
  rcases h with ⟨c, -, rfl⟩ | ⟨-, -, -, rfl⟩ | ⟨-, -, rfl⟩ | ⟨v, ⟨hlt, -⟩, rfl⟩
  · exact Nat.zero_le _
  · exact Nat.zero_le _
  · exact hw
  · exact hlt

theorem execDbyte_total (b : Byte) {s : State} (hw : s.wp ≤ s.cap) :
    ∃ t, exec (.dbyte b) s = .next t ∧ DbyteCase b s.accept t := dbyte_total (s := s.accept) hw

/-- A DBYTE with results already listed adds its own to them. -/
theorem dbyte_withRsp {b : Byte} {s t : State} (ht : exec (.dbyte b) s = .next t) (hd : s.bufRdata = none)
    (l : List Result) : dbyte b { s with rsp := l } = .next { t with rsp := l ++ t.rsp } := by
  have ht : dbyte b s.accept = .next t := ht
  obtain ⟨-, -, hhost, -, hrdata, -⟩ := (dbyte_cases ht).frame
  have hs : ({ s with rsp := l } : State) = { s with rsp := l, bufRdata := none, host := s.host } := by rw [← hd]
  rw [hs, dbyte_listed, ht, mapNext, andThen_next, State.listed]
  simp only [hhost, hrdata, State.accept_host, State.accept_bufRdata]

/-- Feeding bytes is their DBYTEs one after another: the same state, with all the results listed where the DBYTEs present
each for itself. -/
theorem dfeed_eq_transcript (bs : List Byte) {s : State} (hw : s.wp ≤ s.cap) (hd : s.bufRdata = none) :
    ∃ t rs, transcript (expandDfeed bs) s = some (t, rs) ∧
      ∀ l, dfeed bs { s with rsp := l } = .next { t with rsp := l ++ rs } := by
  induction bs generalizing s with
  | nil => exact ⟨s, [], rfl, fun l => by rw [List.append_nil]; rfl⟩
  | cons b bs ih =>
    obtain ⟨t, ht, hc⟩ := execDbyte_total b hw
    obtain ⟨-, -, -, -, hrdata, -⟩ := hc.frame
    obtain ⟨u, rs, htr, hfeed⟩ := ih (hc.wp_le hw) hrdata
    refine ⟨u, t.rsp ++ rs, ?_, fun l => ?_⟩
    · rw [expandDfeed, List.map_cons, transcript_cons ht, ← expandDfeed, htr, Option.map_some]
    · rw [dfeed_cons, dbyte_withRsp ht hd, andThen_next, hfeed, List.append_assoc]

/-- The first operation clears the outputs, so a run does not depend on them. -/
theorem transcript_cons_accept (i : Instr) (is : List Instr) (s : State) :
    transcript (i :: is) s.accept = transcript (i :: is) s := by
  simp only [transcript, exec_accept]

/-- Settles O50: a token has a byte, so its DBYTEs run alike from the state with the outputs cleared, which it feeds. -/
theorem wireTokenIsTheDbytesOfItsBytes : Obligations.WireTokenIsTheDbytesOfItsBytes := by
  intro i bytes s henc hw
  obtain ⟨t, rs, htr, hfeed⟩ := dfeed_eq_transcript bytes (s := s.accept) hw rfl
  refine ⟨t, rs, ?_, (exec_wire henc s).trans (hfeed [])⟩
  rcases bytes with _ | ⟨b, bs⟩
  · cases i <;> cases henc
  · rw [← htr]
    exact (transcript_cons_accept (.dbyte b) (expandDfeed bs) s).symm

end Sys2Proof.Machine
end

section
/-! PROOFS. DBYTE row by row in `Accumulating` and in `Escaped`, and from the rows what each token of the wire does at a token
boundary (R62, R65). -/

namespace Sys2Proof.Machine

/-! ## The rows of DBYTE -/

section
variable {s : State}

theorem dbyte_of_accumulating (hm : s.mode = .accumulating) (b : Byte) : dbyte b s = dbyteAccumulating b s := by
  rw [dbyte, hm]

theorem dbyte_of_escaped (hm : s.mode = .escaped) (b : Byte) : dbyte b s = dbyteEscaped b s := by
  rw [dbyte, hm]

/-- R112. -/
theorem dbyte_delimiter_of_pos (hm : s.mode = .accumulating) (hw : 0 < s.wp) :
    dbyte Config.delimiter s = .next (s.doReset.reply (.done s.wp)) := by
  rw [dbyte_of_accumulating hm, dbyteAccumulating, if_pos rfl, if_pos hw]

/-- R113. -/
theorem dbyte_delimiter_of_zero (hm : s.mode = .accumulating) (hw : s.wp = 0) :
    dbyte Config.delimiter s = .next (raiseDecodeError .prematureEnd s) := by
  rw [dbyte_of_accumulating hm, dbyteAccumulating, if_pos rfl, if_neg (by omega)]

/-- R115. -/
theorem dbyte_escape (hm : s.mode = .accumulating) :
    dbyte Config.escape s = .next ({ s with mode := .escaped }.reply .ok) := by
  rw [dbyte_of_accumulating hm, dbyteAccumulating, if_neg (by decide), if_pos rfl]

/-- R116, R117. -/
theorem dbyte_ordinary (hm : s.mode = .accumulating) {b : Byte} (hb : ordinary b) :
    dbyte b s = acceptPayload b s := by
  rw [dbyte_of_accumulating hm, dbyteAccumulating, if_neg hb.1, if_neg hb.2]

/-- R114. -/
theorem dbyte_delimiter_of_escaped (hm : s.mode = .escaped) :
    dbyte Config.delimiter s = .next (raiseDecodeError .prematureEnd s) := by
  rw [dbyte_of_escaped hm, dbyteEscaped, if_pos rfl]

/-- R118, R119, R120. -/
theorem dbyte_escapeCode (hm : s.mode = .escaped) {x lit : Byte} (hu : unescape x = some lit) :
    dbyte x s = acceptPayload lit s := by
  have hd : x ≠ Config.delimiter := by rcases unescape_eq_some.mp hu with ⟨rfl, -⟩ | ⟨rfl, -⟩ <;> decide
  rw [dbyte_of_escaped hm, dbyteEscaped, if_neg hd, hu]

/-- R121. -/
theorem dbyte_malformed (hm : s.mode = .escaped) {x : Byte} (hd : x ≠ Config.delimiter) (hx : ¬ escapeCode x) :
    dbyte x s = .next (raiseDecodeError .malformedEscape s) := by
  rw [dbyte_of_escaped hm, dbyteEscaped, if_neg hd, unescape_eq_none.mpr hx]

/-! ## The tokens -/

theorem dfeed_singleton (b : Byte) (s : State) : dfeed [b] s = dbyte b s := by
  rw [dfeed_cons]
  cases dbyte b s <;> rfl

/-- The state between the two bytes of an escape token, its first result listed. -/
def afterEscape (s : State) : State := { s with mode := .escaped, rsp := [.ok], bufRdata := none }

theorem dfeed_escape (hm : s.mode = .accumulating) (x : Byte) :
    dfeed [Config.escape, x] s.accept = dbyte x (afterEscape s) := by
  rw [dfeed_cons, dbyte_escape (s := s.accept) hm, andThen_next, dfeed_singleton]
  rfl

/-- A token whose payload byte is accepted stores it at `wp` (R116, R118, R119): its last byte meets some mode `m` and the
results `rs` of the bytes before it. -/
theorem acceptPayload_stores (hm : s.mode = .accumulating) (hw : s.wp < s.cap) (v : Byte) (m : Mode) (rs : List Result) :
    ∃ t, acceptPayload v { s with mode := m, rsp := rs, bufRdata := none } = .next t ∧ storesAt s t s.wp [v] ∧
      t = { s with buf := t.buf, wp := s.wp + 1, rsp := rs ++ [.ok], bufRdata := none } := by
  refine ⟨_, acceptPayload_of_lt (s := { s with mode := m, rsp := rs, bufRdata := none }) hw v, storesAt_singleton rfl, ?_⟩
  simp only [afterPayload, afterStore, State.reply, hm]

end

/-- Settles O49: an end and a literal are one row of DBYTE; an escape token is the row of its second byte after the ESC. -/
theorem wireTokensAtATokenBoundary : Obligations.WireTokensAtATokenBoundary := by
  intro s hm
  have hend : exec .wireEnd s = dbyte Config.delimiter s.accept := dfeed_singleton _ _
  have hliteral {v : Byte} (hv : ordinary v) : exec (.wireLiteral v) s = acceptPayload v s.accept :=
    (dfeed_singleton _ _).trans (dbyte_ordinary (s := s.accept) hm hv)
  have hescEnd : exec .wireEscEnd s = acceptPayload 0xC0#8 (afterEscape s) :=
    (dfeed_escape hm _).trans (dbyte_escapeCode rfl rfl)
  have hescEsc : exec .wireEscEsc s = acceptPayload 0xDB#8 (afterEscape s) :=
    (dfeed_escape hm _).trans (dbyte_escapeCode rfl rfl)
  have hinvalid (x : Byte) : exec (.wireEscInvalid x) s = dbyte x (afterEscape s) := dfeed_escape hm x
  refine ⟨fun hw => ?complete, fun hw => ?empty, fun hw => ?escEnd, fun hw => ?escEsc, fun v hd he hw => ?literal,
    fun hw => ⟨?escEndFull, ?escEscFull, fun v hd he => ?literalFull⟩, ?escDelimiter, fun x hd h1 h2 => ?escMalformed⟩
  case complete => exact hend.trans (dbyte_delimiter_of_pos (s := s.accept) hm hw)
  case empty => exact hend.trans (dbyte_delimiter_of_zero (s := s.accept) hm hw)
  case escEnd => exact hescEnd ▸ acceptPayload_stores hm hw _ .escaped [.ok]
  case escEsc => exact hescEsc ▸ acceptPayload_stores hm hw _ .escaped [.ok]
  case literal => exact hliteral ⟨hd, he⟩ ▸ acceptPayload_stores hm hw v s.mode []
  case escEndFull => exact hescEnd.trans (acceptPayload_of_full (s := afterEscape s) hw _)
  case escEscFull => exact hescEsc.trans (acceptPayload_of_full (s := afterEscape s) hw _)
  case literalFull => exact (hliteral ⟨hd, he⟩).trans (acceptPayload_of_full (s := s.accept) hw v)
  case escDelimiter => exact (hinvalid _).trans (dbyte_delimiter_of_escaped rfl)
  case escMalformed => exact (hinvalid x).trans (dbyte_malformed rfl hd (not_or.mpr ⟨h1, h2⟩))

end Sys2Proof.Machine
end

section
/-! PROOFS. The control operations over every step: no step re-binds the instance (R81), and what LEN returns at each moment
of R85, which is `wp` as each operation leaves it. -/

namespace Sys2Proof.Machine

/-! ## The binding -/

theorem Move.keeps_binding {s t : State} (h : Move s t) : t.cap = s.cap ∧ t.variant = s.variant := by
  cases h with
  | own | mode | length | store => exact ⟨rfl, rfl⟩

/-- Settles O6: no move writes `cap` or `variant`, so no step does. -/
theorem noStepRebindsOrReconfigures : Obligations.NoStepRebindsOrReconfigures := by
  intro s t h
  refine step_keeps (P := fun u => u.cap = s.cap ∧ u.variant = s.variant) (fun u v hmove hu => ?_) h ⟨rfl, rfl⟩
  obtain ⟨hcap, hvariant⟩ := hmove.keeps_binding
  exact ⟨hcap.trans hu.1, hvariant.trans hu.2⟩

/-! ## `wp` after each operation -/

theorem execLen_rsp {s t : State} (h : exec .len s = .next t) : t.rsp = [.val s.wp] := by
  cases h
  rfl

/-- An instance that has a step is `SingleEnded` (U3). -/
theorem variant_of_step {s t : State} (h : step s = .next t) : s.variant = .singleEnded := by
  cases hv : s.variant with
  | singleEnded => rfl
  | doubleEnded => simp [step, hv] at h

/-- A step that goes on with an event pending has served it. -/
theorem serve_of_step {s t : State} {e : HostEvent} {rest : List HostEvent} (h : step s = .next t)
    (hh : s.host = e :: rest) : serve e { s with host := rest } = .next t :=
  (step_of_event (variant_of_step h) hh).symm.trans h

/-- An operation abandoned by hardware reset leaves `wp` at 0, whatever it was (R172). -/
theorem abandonCommand_wp {c : PortCommand} {s t : State} (h : abandonCommand c s = .next t) : t.wp = 0 := by
  rcases abandonCommand_refuses_or_resets c s with ⟨r, hr⟩ | hreset
  · cases hr.symm.trans h
  · cases hreset.symm.trans h
    rfl

/-- A DBYTE that answers OK has stored one byte, unless it was the ESC at a token boundary (R115, R116, R118, R119). -/
theorem DbyteCase.wp_of_ok {b : Byte} {s t : State} (h : DbyteCase b s t) (hr : t.rsp = s.rsp ++ [.ok]) :
    t.wp = if s.mode = .accumulating ∧ b = Config.escape then s.wp else s.wp + 1 := by
  rcases h with ⟨c, -, rfl⟩ | ⟨-, -, -, rfl⟩ | ⟨hm, he, rfl⟩ | ⟨v, hv, rfl⟩
  · simp at hr
  · simp at hr
  · rw [if_pos ⟨hm, he⟩, State.reply_wp]
  · have hne : b ≠ Config.escape := fun he => not_storesLiteral_of_special (.inr he) s v hv
    rw [if_neg fun hesc => hne hesc.2, afterPayload_wp]

/-- A DBYTE that answers anything but OK has completed or dropped the frame, and reset (R112, R150). -/
theorem DbyteCase.wp_of_ne_ok {b : Byte} {s t : State} {r : Result} (h : DbyteCase b s t) (hr : t.rsp = s.rsp ++ [r])
    (hne : r ≠ .ok) : t.wp = 0 := by
  rcases h with ⟨c, -, rfl⟩ | ⟨-, -, -, rfl⟩ | ⟨-, -, rfl⟩ | ⟨v, -, rfl⟩
  · rfl
  · rfl
  · exact absurd (by simpa using hr.symm) hne
  · exact absurd (by simpa using hr.symm) hne

theorem execEbyte_wp_of_ok {b : Byte} {s t : State} (h : exec (.ebyte b) s = .next t) (hr : t.rsp = [.ok]) :
    t.wp = s.wp + need b := by
  rcases execEbyte_cases h with ⟨-, rfl⟩ | ⟨-, rfl⟩
  · rw [State.reply_wp, afterStores_wp, stuff_length, State.accept_wp]
  · simp [raiseEncodeCapacity] at hr

theorem execEbyte_wp_of_err {b : Byte} {s t : State} (h : exec (.ebyte b) s = .next t) (hr : t.rsp = [.err .capacity]) :
    t.wp = s.wp := by
  rcases execEbyte_cases h with ⟨-, rfl⟩ | ⟨-, rfl⟩
  · simp at hr
  · rfl

/-- The length a completed EFRAME answers is the `wp` it leaves (R96). -/
theorem execEframe_wp_of_done {m : List Byte} {n : Nat} {s t : State} (h : exec (.eframe m) s = .next t)
    (hr : t.rsp = [.done n]) : t.wp = n := by
  rcases execEframe_cases h with ⟨-, rfl⟩ | ⟨-, rfl⟩
  · have hn : m.length + specials m + 1 = n := by simpa using hr
    rw [State.reply_wp, afterStores_wp, frame_length, State.doReset_wp, Nat.zero_add, hn]
  · simp [encodeFailure, raiseEncodeCapacity] at hr

theorem execEframe_wp_le_of_err {m : List Byte} {s t : State} (h : exec (.eframe m) s = .next t)
    (hr : t.rsp = [.err .capacity]) : t.wp ≤ s.cap := by
  rcases execEframe_cases h with ⟨-, rfl⟩ | ⟨-, rfl⟩
  · simp at hr
  · exact s.accept.spoil_wp_le

/-- Settles O19: LEN answers the `wp` it finds, and each row of R85 is the `wp` that its operation leaves. -/
theorem lengthAtEachMoment : Obligations.LengthAtEachMoment := by
  refine ⟨fun cap t u ht hu => ?construction, fun s t u hu => ?_⟩
  case construction =>
    cases ht
    exact execLen_rsp hu
  rw [execLen_rsp hu]
  refine ⟨fun rest hh h => ?hardwareReset, fun c rest hh h => ?hardwareResetDuring, fun h => ?reset,
    fun b h hr => ?dbyteOk, fun b r h hr hne => ?dbyteNotOk, fun b h hr => ?ebyteOk, fun b h hr => ?ebyteErr,
    fun msg n h hr => ?eframeDone, fun msg h hr => ?eframeErr⟩
  case hardwareReset => cases serve_of_step h hh; rfl
  case hardwareResetDuring => rw [abandonCommand_wp (serve_of_step h hh)]
  case reset => cases h; rfl
  case dbyteOk => rw [(dbyte_cases h).wp_of_ok hr, State.accept_mode, State.accept_wp]; split <;> rfl
  case dbyteNotOk => rw [(dbyte_cases h).wp_of_ne_ok hr hne]
  case ebyteOk => rw [execEbyte_wp_of_ok h hr]
  case ebyteErr => rw [execEbyte_wp_of_err h hr]
  case eframeDone => rw [execEframe_wp_of_done h hr]
  case eframeErr => exact ⟨t.wp, execEframe_wp_le_of_err h hr, rfl⟩

end Sys2Proof.Machine
end

section
/-! PROOFS. The stuffing rule and the stuffed message (R91, R92, R100): each byte is stuffed by one of three rows, and from the
rows come the lengths, the absence of END, the codes after ESC and the injectivity of stuffing. -/

namespace Sys2Proof.Machine

/-! ## One byte -/

theorem stuff_of_ordinary {b : Byte} (h : ordinary b) : stuff b = [b] := by
  rw [stuff, if_neg h.2, if_neg h.1]

/-- The rows of the stuffing rule (R91). -/
theorem stuff_cases (b : Byte) :
    (b = Config.escape ∧ stuff b = [Config.escape, Config.escapedEscape]) ∨
    (b = Config.delimiter ∧ stuff b = [Config.escape, Config.escapedDelimiter]) ∨
    (ordinary b ∧ stuff b = [b]) := by
  by_cases hescape : b = Config.escape
  · exact .inl ⟨hescape, by rw [hescape]; rfl⟩
  · by_cases hdelimiter : b = Config.delimiter
    · exact .inr (.inl ⟨hdelimiter, by rw [hdelimiter]; rfl⟩)
    · exact .inr (.inr ⟨⟨hdelimiter, hescape⟩, stuff_of_ordinary ⟨hdelimiter, hescape⟩⟩)

/-- Settles O34: the rows by evaluation and by `stuff_of_ordinary`, the need by the token's length. -/
theorem stuffingRule : Obligations.StuffingRule :=
  ⟨rfl, rfl, fun _ hescape hdelimiter => stuff_of_ordinary ⟨hdelimiter, hescape⟩,
    fun b => ⟨(stuff_length b).symm, if_congr or_comm rfl rfl⟩⟩

theorem delimiter_not_mem_stuff (b : Byte) : Config.delimiter ∉ stuff b := by
  rcases stuff_cases b with ⟨-, h⟩ | ⟨-, h⟩ | ⟨⟨hb, -⟩, h⟩ <;> rw [h]
  · decide
  · decide
  · exact fun hmem => hb (List.mem_singleton.mp hmem).symm

/-- The payload byte that a token of the wire carries, if it carries one (R62, R67). -/
def tokenPayload : Instr → Option Byte
  | .wireEscEnd => some Config.delimiter
  | .wireEscEsc => some Config.escape
  | .wireLiteral v => some v
  | _ => none

/-- Stuffing is undone by the wire's decoder: the first token of a sequence that begins with a stuffed byte is that byte's. -/
theorem decodeToken_stuff_append (b : Byte) (l : List Byte) :
    ∃ i, decodeToken (stuff b ++ l) = .ok (i, l) ∧ tokenPayload i = some b := by
  rcases stuff_cases b with ⟨rfl, h⟩ | ⟨rfl, h⟩ | ⟨hord, h⟩ <;> rw [h]
  · exact ⟨.wireEscEsc, rfl, rfl⟩
  · exact ⟨.wireEscEnd, rfl, rfl⟩
  · exact ⟨.wireLiteral b, decodeToken_literal hord l, rfl⟩

/-- Stuffed bytes need no separator: a sequence that begins with one determines its byte and what is left (R100). -/
theorem stuff_append_inj {b c : Byte} {x y : List Byte} (h : stuff b ++ x = stuff c ++ y) : b = c ∧ x = y := by
  obtain ⟨i, hi, hb⟩ := decodeToken_stuff_append b x
  obtain ⟨j, hj, hc⟩ := decodeToken_stuff_append c y
  rw [h, hj] at hi
  cases hi
  exact ⟨Option.some.inj (hb.symm.trans hc), rfl⟩

/-! ## A message -/

/-- Settles O35: the lengths are `stuffSeq_length` and `frame_length`, with at most one special for each byte. -/
theorem frameLengthIsExact : Obligations.FrameLengthIsExact := by
  intro m
  have hspecials : specials m ≤ m.length := List.countP_le_length
  have hlength := frame_length m
  refine ⟨List.flatMap_def, rfl, ?count, stuffSeq_length m, hlength, by omega, by omega, fun hall => ?worst, rfl⟩
  case count =>
    refine congrArg (m.countP ·) (funext fun b => ?_)
    simp only [isSpecial, Bool.decide_or]
    rfl
  case worst =>
    have hworst : specials m = m.length := List.countP_eq_length.mpr fun b hb => decide_eq_true (hall b hb)
    omega

/-- Every ESC of a byte sequence is followed by an escape code. -/
def EscapesAreCoded (l : List Byte) : Prop :=
  ∀ i, l[i]? = some Config.escape → l[i + 1]? = some Config.escapedDelimiter ∨ l[i + 1]? = some Config.escapedEscape

theorem EscapesAreCoded.cons_of_ne {b : Byte} {l : List Byte} (hb : b ≠ Config.escape) (h : EscapesAreCoded l) :
    EscapesAreCoded (b :: l)
  | 0, hi => absurd (Option.some.inj hi) hb
  | i + 1, hi => h i hi

theorem EscapesAreCoded.escape_cons {c : Byte} {l : List Byte} (hc : escapeCode c) (h : EscapesAreCoded (c :: l)) :
    EscapesAreCoded (Config.escape :: c :: l)
  | 0, _ => hc.imp (congrArg some) (congrArg some)
  | i + 1, hi => h i hi

theorem EscapesAreCoded.stuff_append (b : Byte) {l : List Byte} (h : EscapesAreCoded l) :
    EscapesAreCoded (stuff b ++ l) := by
  rcases stuff_cases b with ⟨-, hb⟩ | ⟨-, hb⟩ | ⟨⟨-, hord⟩, hb⟩ <;> rw [hb]
  · exact escape_cons (.inr rfl) (h.cons_of_ne (by decide))
  · exact escape_cons (.inl rfl) (h.cons_of_ne (by decide))
  · exact h.cons_of_ne hord

theorem escapesAreCoded_stuffSeq (m : List Byte) : EscapesAreCoded (stuffSeq m) := by
  induction m with
  | nil => exact fun i hi => nomatch hi
  | cons b m ih => exact ih.stuff_append b

theorem delimiter_not_mem_stuffSeq (m : List Byte) : Config.delimiter ∉ stuffSeq m := fun h =>
  let ⟨b, _, hb⟩ := List.mem_flatMap.mp h
  delimiter_not_mem_stuff b hb

theorem stuffSeq_cons_ne_nil (b : Byte) (m : List Byte) : stuffSeq (b :: m) ≠ [] :=
  List.append_ne_nil_of_left_ne_nil (List.ne_nil_of_length_pos (stuff_length b ▸ need_pos b)) _

theorem stuffSeq_injective : Function.Injective stuffSeq := by
  intro m
  induction m with
  | nil =>
    rintro (_ | ⟨c, m'⟩) h
    · rfl
    · exact absurd h.symm (stuffSeq_cons_ne_nil c m')
  | cons b m ih =>
    rintro (_ | ⟨c, m'⟩) h
    · exact absurd h (stuffSeq_cons_ne_nil b m)
    · obtain ⟨rfl, hrest⟩ := stuff_append_inj h
      rw [ih hrest]

/-- Settles O36: each law holds of one byte's token, and carries over to the message. -/
theorem stuffedOutputLaws : Obligations.StuffedOutputLaws :=
  ⟨delimiter_not_mem_stuffSeq, escapesAreCoded_stuffSeq, fun _ _ h => stuffSeq_injective h⟩

end Sys2Proof.Machine
end

section
/-! PROOFS. The streaming encoder: one EBYTE (R93, R94), and the EBYTEs of a message as the stores of its stuffed form (R95). -/

namespace Sys2Proof.Machine

/-! ## Stores -/

theorem storesAt_of_buf {vs : List Byte} {s t : State} (h : t.buf = (afterStores vs s).buf) : storesAt s t s.wp vs :=
  ⟨fun _ hi => h ▸ afterStores_read vs s hi, fun _ hc => h ▸ afterStores_read_other vs s hc⟩

theorem afterStores_withOutputs (vs : List Byte) (s : State) (l : List Result) (d : Option Byte) :
    afterStores vs { s with rsp := l, bufRdata := d } = { afterStores vs s with rsp := l, bufRdata := d } := by
  induction vs generalizing s with
  | nil => rfl
  | cons v vs ih => exact ih (afterStore v s)

/-! ## One EBYTE -/

/-- The state after an EBYTE whose token fits (R93). -/
def afterEbyte (b : Byte) (s : State) : State := { afterStores (stuff b) s with rsp := [.ok], bufRdata := none }

@[simp] theorem afterEbyte_wp (b : Byte) (s : State) : (afterEbyte b s).wp = s.wp + need b :=
  (afterStores_wp (stuff b) s).trans (congrArg (s.wp + ·) (stuff_length b))

@[simp] theorem afterEbyte_cap (b : Byte) (s : State) : (afterEbyte b s).cap = s.cap := afterStores_cap (stuff b) s

theorem exec_ebyte_of_fits {b : Byte} {s : State} (h : s.wp + need b ≤ s.cap) :
    exec (.ebyte b) s = .next (afterEbyte b s) := by
  refine (execEbyte_of_fits h).trans ?_
  rw [State.accept, afterStores_withOutputs]
  rfl

theorem exec_ebyte_of_not_fits {b : Byte} {s : State} (h : s.cap < s.wp + need b) :
    exec (.ebyte b) s = .next { s with rsp := [.err .capacity], bufRdata := none } :=
  execEbyte_of_not_fits h

/-- Settles O37: the stores of the token, which change `buf` and `wp` only. -/
theorem ebyteStoresTheStuffedToken : Obligations.EbyteStoresTheStuffedToken := by
  intro b s hfit
  refine ⟨afterEbyte b s, exec_ebyte_of_fits hfit, storesAt_of_buf rfl, ?_⟩
  rw [afterEbyte, afterStores_fields, stuff_length]

/-- Settles O38: `CAP - wp < need` says that the token does not fit, whether or not `wp` is above CAP. -/
theorem ebyteFailureChangesNothing : Obligations.EbyteFailureChangesNothing :=
  fun _ _ h => exec_ebyte_of_not_fits (by omega)

/-! ## The EBYTEs of a message -/

theorem transcript_ebyte_cons {b : Byte} {m : List Byte} {s t u : State} {rs : List Result}
    (hb : exec (.ebyte b) s = .next t) (hm : transcript (expandEfeed m) t = some (u, rs)) :
    transcript (expandEfeed (b :: m)) s = some (u, t.rsp ++ rs) := by
  rw [expandEfeed, List.map_cons, transcript_cons hb, ← expandEfeed, hm, Option.map_some]

theorem ebytes_total (m : List Byte) (s : State) : ∃ u rs, transcript (expandEfeed m) s = some (u, rs) := by
  induction m generalizing s with
  | nil => exact ⟨s, [], rfl⟩
  | cons b m ih =>
    obtain ⟨t, ht⟩ := execEbyte_total b s
    obtain ⟨u, rs, hu⟩ := ih t
    exact ⟨u, t.rsp ++ rs, transcript_ebyte_cons ht hu⟩

/-- The EBYTEs of a message whose stuffed form fits all answer OK, and are the stores of that form (R95). -/
theorem ebytes_of_fits {m : List Byte} {s : State} (h : s.wp + (stuffSeq m).length ≤ s.cap) :
    ∃ l d, transcript (expandEfeed m) s =
      some ({ afterStores (stuffSeq m) s with rsp := l, bufRdata := d }, List.replicate m.length .ok) := by
  induction m generalizing s with
  | nil => exact ⟨s.rsp, s.bufRdata, rfl⟩
  | cons b m ih =>
    rw [stuffSeq_cons, List.length_append, stuff_length] at h
    have hb := exec_ebyte_of_fits (b := b) (s := s) (by omega)
    obtain ⟨l, d, hm⟩ := ih (s := afterEbyte b s) (by rw [afterEbyte_wp, afterEbyte_cap]; omega)
    refine ⟨l, d, (transcript_ebyte_cons hb hm).trans ?_⟩
    rw [afterEbyte, afterStores_withOutputs, stuffSeq_cons, afterStores_append]
    rfl

/-- Of a message whose stuffed form does not fit, some EBYTE fails; those after it still answer (R94). -/
theorem ebytes_of_not_fits {m : List Byte} {s : State} (h : s.cap < s.wp + (stuffSeq m).length) (hw : s.wp ≤ s.cap) :
    ∃ u rs, transcript (expandEfeed m) s = some (u, rs) ∧ .err .capacity ∈ rs := by
  induction m generalizing s with
  | nil => exact absurd hw (Nat.not_le.mpr h)
  | cons b m ih =>
    by_cases hfit : s.wp + need b ≤ s.cap
    · rw [stuffSeq_cons, List.length_append, stuff_length] at h
      obtain ⟨u, rs, hm, hmem⟩ := ih (s := afterEbyte b s) (by rw [afterEbyte_wp, afterEbyte_cap]; omega)
        (by rw [afterEbyte_wp, afterEbyte_cap]; exact hfit)
      exact ⟨u, _, transcript_ebyte_cons (exec_ebyte_of_fits hfit) hm, List.mem_append_right _ hmem⟩
    · obtain ⟨u, rs, hm⟩ := ebytes_total m { s with rsp := [.err .capacity], bufRdata := none }
      exact ⟨u, _, transcript_ebyte_cons (exec_ebyte_of_not_fits (by omega)) hm, List.mem_cons_self⟩

/-- Settles O39: the EBYTEs are the stores of the stuffed message. -/
theorem streamedEncodingIsTheStuffedMessage : Obligations.StreamedEncodingIsTheStuffedMessage := by
  intro m s hfit
  obtain ⟨l, d, hm⟩ := ebytes_of_fits hfit
  refine ⟨_, hm, storesAt_of_buf rfl, ?_, afterStores_mode (stuffSeq m) s⟩
  rw [afterStores_wp, stuffSeq_length, Nat.add_assoc]

end Sys2Proof.Machine
end

section
/-! PROOFS. EFRAME: the frame it writes or the failure (R96, R97), EFRAME as RESET, EBYTEs and one store of END (R98), and the
frame of the empty message, which no decoder accepts. -/

namespace Sys2Proof.Machine

theorem accept_doReset (s : State) : s.accept.doReset = s.doReset.accept := rfl

theorem exec_eframe_of_fits {m : List Byte} {s : State} (h : m.length + specials m + 1 ≤ s.cap) :
    exec (.eframe m) s = .next { afterStores (frame m) s.doReset with
      rsp := [.done (m.length + specials m + 1)], bufRdata := none } := by
  refine (execEframe_of_fits h).trans ?_
  rw [accept_doReset, State.accept, afterStores_withOutputs]
  rfl

/-- Settles O40: the stores of the frame from the reset `wp`, which change `buf` and `wp` only. -/
theorem eframeWritesTheFrame : Obligations.EframeWritesTheFrame := by
  intro msg s hfit
  refine ⟨_, exec_eframe_of_fits hfit, storesAt_of_buf (s := s.doReset) rfl, ?_⟩
  rw [afterStores_fields, frame_length, State.doReset_wp, Nat.zero_add]
  rfl

/-- Settles O41: `spoil` draws each byte of BUF and bounds `wp`, and the failure adds the result. -/
theorem eframeFailureLeavesBufUnspecified : Obligations.EframeFailureLeavesBufUnspecified :=
  fun _ s hfull => ⟨_, execEframe_of_not_fits hfull, s.accept.spoil_wp_le, s.accept.spoil_read, rfl⟩

/-! ## EFRAME as a run of operations -/

/-- The state RESET leaves (R82). -/
def afterReset (s : State) : State := { s.doReset with rsp := [.ok], bufRdata := none }

theorem transcript_reset_cons {is : List Instr} {s u : State} {rs : List Result}
    (h : transcript is (afterReset s) = some (u, rs)) : transcript (.reset :: is) s = some (u, .ok :: rs) := by
  rw [transcript_cons (t := afterReset s) rfl, h]
  rfl

theorem afterStores_stuffSeq_wp (m : List Byte) (s : State) :
    (afterStores (stuffSeq m) s.doReset).wp = m.length + specials m := by
  rw [afterStores_wp, stuffSeq_length, State.doReset_wp, Nat.zero_add]

/-- RESET and the EBYTEs of a message that fits all answer OK, and are the stores of its stuffed form from index 0. -/
theorem reset_ebytes_of_fits {m : List Byte} {s : State} (h : m.length + specials m ≤ s.cap) :
    ∃ l d, transcript (.reset :: expandEfeed m) s =
      some ({ afterStores (stuffSeq m) s.doReset with rsp := l, bufRdata := d }, List.replicate (m.length + 1) .ok) := by
  have hfit : (afterReset s).wp + (stuffSeq m).length ≤ (afterReset s).cap := by
    rw [stuffSeq_length]
    exact (Nat.zero_add _).trans_le h
  obtain ⟨l, d, hm⟩ := ebytes_of_fits hfit
  refine ⟨l, d, (transcript_reset_cons hm).trans ?_⟩
  rw [afterReset, afterStores_withOutputs]
  rfl

theorem reset_ebytes_of_not_fits {m : List Byte} {s : State} (h : s.cap < m.length + specials m) :
    ∃ u rs, transcript (.reset :: expandEfeed m) s = some (u, rs) ∧ .err .capacity ∈ rs := by
  have hfull : (afterReset s).cap < (afterReset s).wp + (stuffSeq m).length := by
    rw [stuffSeq_length]
    exact h.trans_eq (Nat.zero_add _).symm
  obtain ⟨u, rs, hm, hmem⟩ := ebytes_of_not_fits hfull (Nat.zero_le _)
  exact ⟨u, .ok :: rs, transcript_reset_cons hm, List.mem_cons_of_mem _ hmem⟩

/-- EFRAME fails exactly when the frame does not fit (R96, R97). -/
theorem eframe_fails_iff (m : List Byte) (s : State) :
    (∃ t, exec (.eframe m) s = .next t ∧ t.rsp = [.err .capacity]) ↔ s.cap < m.length + specials m + 1 := by
  constructor
  · rintro ⟨t, ht, hr⟩
    rcases execEframe_cases ht with ⟨-, rfl⟩ | ⟨hfull, -⟩
    · simp at hr
    · exact hfull
  · exact fun hfull => ⟨_, execEframe_of_not_fits hfull, rfl⟩

/-- RESET and the EBYTEs fail or fill the buffer exactly when the frame does not fit (R98). -/
theorem reset_ebytes_fail_or_fill_iff (m : List Byte) (s : State) :
    (∃ u rs, transcript (.reset :: expandEfeed m) s = some (u, rs) ∧ (.err .capacity ∈ rs ∨ u.wp = u.cap)) ↔
      s.cap < m.length + specials m + 1 := by
  by_cases hfit : m.length + specials m ≤ s.cap
  · obtain ⟨l, d, hm⟩ := reset_ebytes_of_fits hfit
    have hwp := afterStores_stuffSeq_wp m s
    have hcap : (afterStores (stuffSeq m) s.doReset).cap = s.cap := afterStores_cap (stuffSeq m) s.doReset
    constructor
    · rintro ⟨u, rs, hrun, hfail⟩
      cases hm.symm.trans hrun
      rcases hfail with hmem | hfull
      · exact nomatch List.eq_of_mem_replicate hmem
      · have hfull : (afterStores (stuffSeq m) s.doReset).wp = (afterStores (stuffSeq m) s.doReset).cap := hfull
        omega
    · intro hfull
      have hfull : (afterStores (stuffSeq m) s.doReset).wp = (afterStores (stuffSeq m) s.doReset).cap := by omega
      exact ⟨_, _, hm, .inr hfull⟩
  · obtain ⟨u, rs, hm, hmem⟩ := reset_ebytes_of_not_fits (m := m) (s := s) (by omega)
    exact iff_of_true ⟨u, rs, hm, .inl hmem⟩ (by omega)

/-- Settles O42: both are the stores of the stuffed message and of END, and both fail exactly when the frame does not fit. -/
theorem eframeIsResetEbytesAndDelimiter : Obligations.EframeIsResetEbytesAndDelimiter := by
  refine fun msg s => ⟨fun hfit => ?_, (eframe_fails_iff msg s).trans (reset_ebytes_fail_or_fill_iff msg s).symm⟩
  obtain ⟨l, d, hm⟩ := reset_ebytes_of_fits (m := msg) (s := s) (by omega)
  have hwp := afterStores_stuffSeq_wp msg s
  refine ⟨_, _, _, hm, append_of_lt ?room _, exec_eframe_of_fits hfit, ?same⟩
  case room =>
    rw [hwp, afterStores_cap, State.doReset_cap]
    omega
  case same =>
    rw [frame, afterStores_append, ← hwp]
    rfl

/-! ## The empty message -/

/-- Bytes stored from index 0 on are what the host drains (R49). -/
theorem drain_of_storesAt {s t : State} {bytes : List Byte} (h : storesAt s t 0 bytes) : drain t bytes.length = bytes := by
  refine List.ext_getElem (by simp [drain]) fun i _ hi => ?_
  have hread := h.1 i hi
  rw [Nat.zero_add] at hread
  simp [drain, hread]

/-- Settles O56: the frame `[0xC0]` is one delimiter, which the decoder meets with nothing accumulated (R113). -/
theorem emptyMessageDoesNotRoundTrip : Obligations.EmptyMessageDoesNotRoundTrip := by
  intro e d hcap hmode hwp
  obtain ⟨e', he, hstores, hfields⟩ := eframeWritesTheFrame [] e hcap
  have hdrain : drain e' 1 = [0xC0#8] := drain_of_storesAt hstores
  have hrejected : exec (.dbyte 0xC0#8) d = .next (raiseDecodeError .prematureEnd d.accept) :=
    dbyte_delimiter_of_zero (s := d.accept) hmode hwp
  refine ⟨e', raiseDecodeError .prematureEnd d.accept, he, congrArg State.rsp hfields, hdrain, ?_⟩
  rw [hdrain]
  exact transcript_cons hrejected

end Sys2Proof.Machine
end

section
/-! PROOFS. DBYTE row by row as an operation (R111 to R121): each statement is its row from the state with the outputs cleared,
where `exec` begins. After them, what the rows have in common (R122 to R125). -/

namespace Sys2Proof.Machine

/-! ## The rows -/

/-- R111. -/
theorem dbyte_of_faulted {s : State} (hm : s.mode = .faulted) (b : Byte) :
    dbyte b s = .next (raiseDecodeError .faultReentry s) := by
  rw [dbyte, hm]

/-- Settles O20: R111's row. -/
theorem dbyteInFaultedClearsTheFault : Obligations.DbyteInFaultedClearsTheFault :=
  fun b s hm => dbyte_of_faulted (s := s.accept) hm b

/-- Settles O21: R112's row. -/
theorem dbyteDelimiterCompletesTheFrame : Obligations.DbyteDelimiterCompletesTheFrame :=
  fun s hm hw => dbyte_delimiter_of_pos (s := s.accept) hm hw

/-- Settles O22: R113's row. -/
theorem dbyteDelimiterOnEmptyFrameIsAnError : Obligations.DbyteDelimiterOnEmptyFrameIsAnError :=
  fun s hm hw => dbyte_delimiter_of_zero (s := s.accept) hm hw

/-- Settles O23: R114's row. -/
theorem dbyteDelimiterAfterEscapeIsAnError : Obligations.DbyteDelimiterAfterEscapeIsAnError :=
  fun s hm => dbyte_delimiter_of_escaped (s := s.accept) hm

/-- R115 as an operation. -/
theorem exec_dbyte_escape {s : State} (hm : s.mode = .accumulating) :
    exec (.dbyte Config.escape) s = .next (afterEscape s) :=
  dbyte_escape (s := s.accept) hm

/-- Settles O24: R115's row. -/
theorem dbyteEscapeEntersEscaped : Obligations.DbyteEscapeEntersEscaped :=
  fun _ hm => exec_dbyte_escape hm

/-- R116, R117 as an operation. -/
theorem exec_dbyte_ordinary {s : State} (hm : s.mode = .accumulating) {b : Byte} (hb : ordinary b) :
    exec (.dbyte b) s = acceptPayload b s.accept :=
  dbyte_ordinary (s := s.accept) hm hb

/-- R118, R119, R120 as an operation. -/
theorem exec_dbyte_escapeCode {s : State} (hm : s.mode = .escaped) {b lit : Byte} (hu : unescape b = some lit) :
    exec (.dbyte b) s = acceptPayload lit s.accept :=
  dbyte_escapeCode (s := s.accept) hm hu

/-- Settles O25: R116's row, whose store is that of `acceptPayload`. -/
theorem dbyteOrdinaryByteIsStored : Obligations.DbyteOrdinaryByteIsStored :=
  fun b s hm hd he hw => exec_dbyte_ordinary hm ⟨hd, he⟩ ▸ acceptPayload_stores hm hw b s.mode []

/-- Settles O26: R117's row, and R112's with `wp` at CAP. -/
theorem dbyteOrdinaryByteOverflows : Obligations.DbyteOrdinaryByteOverflows := by
  intro s hm hfull
  refine ⟨fun b hd he => ?_, fun hcap => ?_⟩
  · exact (exec_dbyte_ordinary hm ⟨hd, he⟩).trans (acceptPayload_of_full (s := s.accept) hfull b)
  · have hdone := dbyteDelimiterCompletesTheFrame s hm (hfull ▸ hcap)
    rwa [hfull] at hdone

/-- Settles O27: the rows R118 and R119: an escape code selects its literal, which is accepted. -/
theorem dbyteEscapeCodeStoresItsLiteral : Obligations.DbyteEscapeCodeStoresItsLiteral := by
  intro b lit s hm hcode hw
  rw [exec_dbyte_escapeCode hm (unescape_eq_some.mpr hcode)]
  exact acceptPayload_stores (s := { s with mode := .accumulating }) rfl hw lit s.mode []

/-- Settles O28: each escape code selects a literal, for which there is no room. -/
theorem dbyteEscapedLiteralOverflows : Obligations.DbyteEscapedLiteralOverflows := by
  intro b s hm hcode hfull
  have hlit : ∃ lit, unescape b = some lit := by
    rcases hcode with rfl | rfl <;> exact ⟨_, rfl⟩
  obtain ⟨lit, hu⟩ := hlit
  exact (exec_dbyte_escapeCode hm hu).trans (acceptPayload_of_full (s := s.accept) hfull lit)

/-- Settles O29: R121's row. -/
theorem dbyteMalformedEscape : Obligations.DbyteMalformedEscape :=
  fun _ s hm hd h1 h2 => dbyte_malformed (s := s.accept) hm hd (not_or.mpr ⟨h1, h2⟩)

/-! ## What the rows have in common -/

/-- A DBYTE answers OK, or it leaves `mode` and `wp` as reset and BUF alone (R124). -/
theorem DbyteCase.ok_or_resets {b : Byte} {s t : State} (h : DbyteCase b s t) :
    t.rsp = s.rsp ++ [.ok] ∨ (t.mode = .accumulating ∧ t.wp = 0 ∧ t.buf = s.buf) := by
  rcases h with ⟨c, -, rfl⟩ | ⟨-, -, -, rfl⟩ | ⟨-, -, rfl⟩ | ⟨v, -, rfl⟩
  · exact .inr ⟨rfl, rfl, rfl⟩
  · exact .inr ⟨rfl, rfl, rfl⟩
  · exact .inl rfl
  · exact .inl rfl

/-- A DBYTE enters `Escaped` on an ESC at a token boundary, and in no other way (R125). -/
theorem dbyte_mode_eq_escaped_iff {b : Byte} {s t : State} (h : dbyte b s = .next t) :
    t.mode = .escaped ↔ s.mode = .accumulating ∧ b = Config.escape := by
  constructor
  · intro ht
    rcases dbyte_cases h with ⟨c, -, rfl⟩ | ⟨-, -, -, rfl⟩ | ⟨hm, he, -⟩ | ⟨v, -, rfl⟩
    · cases ht
    · cases ht
    · exact ⟨hm, he⟩
    · cases ht
  · rintro ⟨hm, rfl⟩
    cases (dbyte_escape hm).symm.trans h
    rfl

/-- Settles O30: a DBYTE goes on in one of four ways, each with these properties. -/
theorem dbyteIsTotalAndResetsUnlessOk : Obligations.DbyteIsTotalAndResetsUnlessOk := by
  intro b s hw
  obtain ⟨t, ht, hc⟩ := execDbyte_total b hw
  obtain ⟨hcap, -, -, -, -, r, hr⟩ := hc.frame
  refine ⟨t, r, ht, hr, fun hne => hc.ok_or_resets.resolve_left fun hok => ?_,
    dbyte_mode_eq_escaped_iff (s := s.accept) ht, hc.mode_ne_faulted, (hc.wp_le hw).trans_eq hcap⟩
  exact hne (List.singleton_inj.mp (hr.symm.trans hok))

end Sys2Proof.Machine
end

section
/-! PROOFS. Whole frames fed to the decoder (R126 to R128): the DBYTEs of a byte's token are one `acceptPayload`, so those of a
stuffed message are the stores of the message, and the next END completes or drops it. -/

namespace Sys2Proof.Machine

/-! ## Runs of DBYTEs -/

theorem transcript_dbyte_cons {b : Byte} {bs : List Byte} {s t u : State} {rs : List Result}
    (hb : exec (.dbyte b) s = .next t) (hbs : transcript (expandDfeed bs) t = some (u, rs)) :
    transcript (expandDfeed (b :: bs)) s = some (u, t.rsp ++ rs) := by
  rw [expandDfeed, List.map_cons, transcript_cons hb, ← expandDfeed, hbs, Option.map_some]

theorem transcript_dbytes_append {bs cs : List Byte} {s t u : State} {rs rs' : List Result}
    (hbs : transcript (expandDfeed bs) s = some (t, rs)) (hcs : transcript (expandDfeed cs) t = some (u, rs')) :
    transcript (expandDfeed (bs ++ cs)) s = some (u, rs ++ rs') := by
  rw [expandDfeed, List.map_append, ← expandDfeed, ← expandDfeed, transcript_append hbs, hcs, Option.map_some]

/-- Settles O33: each delimiter meets the reset `mode` and `wp`, and leaves them. -/
theorem consecutiveDelimitersAreErrors : Obligations.ConsecutiveDelimitersAreErrors := by
  intro q
  induction q with
  | zero => exact fun s hm hw => ⟨s, rfl, hm, hw, rfl⟩
  | succ q ih =>
    intro s hm hw
    have hend : exec (.dbyte Config.delimiter) s = .next (raiseDecodeError .prematureEnd s.accept) :=
      dbyte_delimiter_of_zero (s := s.accept) hm hw
    obtain ⟨t, ht, hkept⟩ := ih (raiseDecodeError .prematureEnd s.accept) rfl rfl
    exact ⟨t, transcript_dbyte_cons hend ht, hkept⟩

/-! ## The token of one byte -/

/-- Accepting a payload byte does not read `mode`: it sets it, stored or not. -/
theorem acceptPayload_withMode (v : Byte) (s : State) (m : Mode) :
    acceptPayload v { s with mode := m } = acceptPayload v s := by
  unfold acceptPayload append
  split
  · rfl
  · split <;> rfl

/-- The DBYTEs of a payload byte's token accept that byte at the last of them, and answer OK before it. -/
theorem transcript_stuff {s t : State} {b : Byte} (hm : s.mode = .accumulating)
    (h : acceptPayload b s.accept = .next t) :
    transcript (expandDfeed (stuff b)) s = some (t, List.replicate (need b - 1) .ok ++ t.rsp) := by
  have hcode {x : Byte} (hu : unescape x = some b) :
      transcript (expandDfeed [Config.escape, x]) s = some (t, .ok :: t.rsp) := by
    have hlast : exec (.dbyte x) (afterEscape s) = .next t :=
      (exec_dbyte_escapeCode rfl hu).trans ((acceptPayload_withMode b s.accept .escaped).trans h)
    rw [transcript_dbyte_cons (exec_dbyte_escape hm) (transcript_dbyte_cons hlast rfl), List.append_nil]
    rfl
  rcases stuff_cases b with ⟨rfl, hb⟩ | ⟨rfl, hb⟩ | ⟨hord, hb⟩
  · exact hb ▸ hcode rfl
  · exact hb ▸ hcode rfl
  · rw [← stuff_length, hb, transcript_dbyte_cons ((exec_dbyte_ordinary hm hord).trans h) rfl, List.append_nil]
    rfl

/-- The DBYTEs of a payload byte's token, with room for the byte. -/
theorem transcript_stuff_of_lt {s : State} (hm : s.mode = .accumulating) (hw : s.wp < s.cap) (b : Byte) :
    transcript (expandDfeed (stuff b)) s =
      some ({ afterStore b s with rsp := [.ok], bufRdata := none }, List.replicate (need b) .ok) := by
  have hstate : afterPayload b s.accept = { afterStore b s with rsp := [.ok], bufRdata := none } := by
    simp [afterPayload, afterStore, State.reply, State.accept, hm]
  have hneed := need_pos b
  rw [transcript_stuff hm (acceptPayload_of_lt (s := s.accept) hw b), hstate, ← List.replicate_one,
    List.replicate_append_replicate, Nat.sub_add_cancel hneed]

/-! ## A stuffed message -/

/-- The DBYTEs of a stuffed message that fits all answer OK, and are the stores of the message. -/
theorem transcript_stuffSeq {m : List Byte} {s : State} (hm : s.mode = .accumulating) (hfit : s.wp + m.length ≤ s.cap) :
    ∃ l d, transcript (expandDfeed (stuffSeq m)) s =
      some ({ afterStores m s with rsp := l, bufRdata := d }, List.replicate (stuffSeq m).length .ok) := by
  induction m generalizing s with
  | nil => exact ⟨s.rsp, s.bufRdata, rfl⟩
  | cons b m ih =>
    rw [List.length_cons] at hfit
    have hb := transcript_stuff_of_lt hm (b := b) (by omega)
    obtain ⟨l, d, hrest⟩ := ih (s := { afterStore b s with rsp := [.ok], bufRdata := none }) hm
      (by simp only [afterStore_wp, afterStore_cap]; omega)
    refine ⟨l, d, (transcript_dbytes_append hb hrest).trans ?_⟩
    rw [afterStores_withOutputs, List.replicate_append_replicate, stuffSeq_cons, List.length_append, stuff_length]
    rfl

/-- A frame that fits is delivered as its message from the reset `mode` and `wp` (R126). -/
theorem transcript_frame {m : List Byte} {s : State} (hne : m ≠ []) (hfit : m.length ≤ s.cap)
    (hm : s.mode = .accumulating) (hw : s.wp = 0) :
    ∃ t, transcript (expandDfeed (frame m)) s =
        some (t, List.replicate (m.length + specials m) .ok ++ [.done m.length]) ∧
      drain t m.length = m ∧ t.mode = .accumulating ∧ t.wp = 0 := by
  obtain ⟨l, d, hstores⟩ := transcript_stuffSeq hm (m := m) (by omega)
  have hwp : (afterStores m s).wp = m.length := by rw [afterStores_wp, hw, Nat.zero_add]
  have hend : exec (.dbyte Config.delimiter) { afterStores m s with rsp := l, bufRdata := d } =
      .next ((afterStores m s).accept.doReset.reply (.done m.length)) :=
    hwp ▸ dbyte_delimiter_of_pos (s := (afterStores m s).accept) ((afterStores_mode m s).trans hm)
      (hwp ▸ List.length_pos_iff.mpr hne)
  refine ⟨_, stuffSeq_length m ▸ transcript_dbytes_append hstores (transcript_dbyte_cons hend rfl), ?_, rfl, rfl⟩
  exact drain_of_storesAt (hw ▸ storesAt_of_buf rfl)

/-- Settles O55: the encoder writes the frame from index 0, which the host drains, and the decoder delivers its message. -/
theorem roundTripOfEveryNonEmptyMessage : Obligations.RoundTripOfEveryNonEmptyMessage := by
  intro m e d hne hencoder hdecoder hm hw
  obtain ⟨e', he, hstores, hfields⟩ := eframeWritesTheFrame m e hencoder
  obtain ⟨d', hd, hdelivered⟩ := transcript_frame hne hdecoder hm hw
  refine ⟨e', d', he, congrArg State.rsp hfields, ?_, hdelivered⟩
  rw [← frame_length, drain_of_storesAt hstores, hd]

/-- A delimiter brings any legal state to the reset `mode` and `wp`, whatever its result (R128). -/
theorem exec_dbyte_delimiter {s : State} (hw : s.wp ≤ s.cap) : ∃ t r, exec (.dbyte Config.delimiter) s = .next t ∧
    t.rsp = [r] ∧ t.mode = .accumulating ∧ t.wp = 0 ∧ t.cap = s.cap := by
  obtain ⟨t, ht, hc⟩ := execDbyte_total Config.delimiter hw
  rcases hc with ⟨c, -, rfl⟩ | ⟨-, -, -, rfl⟩ | ⟨-, hesc, -⟩ | ⟨v, hv, -⟩
  · exact ⟨_, _, ht, rfl, rfl, rfl, rfl⟩
  · exact ⟨_, _, ht, rfl, rfl, rfl, rfl⟩
  · exact absurd hesc (by decide)
  · exact absurd hv (not_storesLiteral_of_special (.inl rfl) _ v)

/-- Settles O59: the delimiter resets the decoder, and the frame after it is delivered as from reset. -/
theorem decoderResynchronisesAtTheNextDelimiter : Obligations.DecoderResynchronisesAtTheNextDelimiter := by
  intro m s hw hne hfit
  obtain ⟨t, r, hend, hr, hmode, hwp, hcap⟩ := exec_dbyte_delimiter hw
  obtain ⟨u, hframe, hdelivered⟩ := transcript_frame hne (hcap ▸ hfit) hmode hwp
  exact ⟨u, r, (transcript_dbyte_cons hend hframe).trans (by rw [hr]; rfl), hdelivered⟩

/-! ## A message that is too long -/

theorem stuffSeq_append (m m' : List Byte) : stuffSeq (m ++ m') = stuffSeq m ++ stuffSeq m' := List.flatMap_append

/-- The DBYTEs of a payload byte's token, with the buffer full (R117, R120). -/
theorem transcript_stuff_of_full {s : State} (hm : s.mode = .accumulating) (hw : s.wp = s.cap) (b : Byte) :
    transcript (expandDfeed (stuff b)) s =
      some (raiseDecodeError .capacity s.accept, List.replicate (need b - 1) .ok ++ [.err .capacity]) :=
  transcript_stuff hm (acceptPayload_of_full (s := s.accept) hw b)

/-- A stuffed message of CAP + 1 bytes is OK up to its last wire byte, which is an overflow (R126). -/
theorem transcript_stuffSeq_overflow {m : List Byte} {s : State} (hlen : m.length = s.cap + 1)
    (hm : s.mode = .accumulating) (hw : s.wp = 0) :
    ∃ t, transcript (expandDfeed (stuffSeq m)) s =
        some (t, List.replicate ((stuffSeq m).length - 1) .ok ++ [.err .capacity]) ∧
      t.wp = 0 ∧ t.bufRdata = none := by
  obtain ⟨init, b, rfl⟩ : ∃ init b, m = init ++ [b] :=
    ⟨m.dropLast, m.getLast (by rintro rfl; simp at hlen), (List.dropLast_concat_getLast _).symm⟩
  have hinit : init.length = s.cap := by simpa using hlen
  obtain ⟨l, d, hstores⟩ := transcript_stuffSeq hm (m := init) (by omega)
  have hfull := transcript_stuff_of_full (s := { afterStores init s with rsp := l, bufRdata := d })
    ((afterStores_mode init s).trans hm) (by simp [hw, hinit]) b
  have hstuffed : stuffSeq (init ++ [b]) = stuffSeq init ++ stuff b := by
    rw [stuffSeq_append, stuffSeq_cons, stuffSeq_nil, List.append_nil]
  have hcount : (stuffSeq (init ++ [b])).length - 1 = (stuffSeq init).length + (need b - 1) := by
    rw [hstuffed, List.length_append, stuff_length, Nat.add_sub_assoc (need_pos b)]
  have hrun := transcript_dbytes_append hstores hfull
  rw [← List.append_assoc, List.replicate_append_replicate, ← hcount, ← hstuffed] at hrun
  exact ⟨_, hrun, rfl, rfl⟩

/-- Settles O57: the first CAP + 1 payload bytes overflow at their last wire byte, and the DBYTEs after it still answer. -/
theorem overlongFrameIsACapacityError : Obligations.OverlongFrameIsACapacityError := by
  intro m d hlong hm hw
  have hlen : (m.take (d.cap + 1)).length = d.cap + 1 := List.length_take_of_le hlong
  obtain ⟨t, hhead, htwp, hrdata⟩ := transcript_stuffSeq_overflow hlen hm hw
  obtain ⟨u, rs, htail, -⟩ := dfeed_eq_transcript (frame (m.drop (d.cap + 1))) (s := t) (by omega) hrdata
  have hsplit : frame m = stuffSeq (m.take (d.cap + 1)) ++ frame (m.drop (d.cap + 1)) := by
    rw [frame, frame, ← List.append_assoc, ← stuffSeq_append, List.take_append_drop]
  refine ⟨u, _, hsplit ▸ transcript_dbytes_append hhead htail, ?_, ?_⟩
  · rw [List.append_assoc, List.take_left' List.length_replicate]
  · rw [List.append_assoc, List.getElem?_append_right List.length_replicate.le, List.length_replicate, Nat.sub_self]
    rfl

/-! ## What the decoder accepts -/

/-- The wire byte the decoder has taken in without a store: the ESC of an unfinished token. -/
def pendingEscape (s : State) : List Byte := if s.mode = .escaped then [Config.escape] else []

theorem pendingEscape_of_escaped {s : State} (hm : s.mode = .escaped) : pendingEscape s = [Config.escape] := if_pos hm

theorem pendingEscape_of_accumulating {s : State} (hm : s.mode = .accumulating) : pendingEscape s = [] :=
  if_neg (by rw [hm]; decide)

/-- A DBYTE that stores a literal has just taken in the last byte of the literal's token. -/
theorem storesLiteral.stuff_eq {b v : Byte} {s : State} (h : storesLiteral b s v) :
    stuff v = pendingEscape s ++ [b] := by
  obtain ⟨-, ⟨hm, hord, rfl⟩ | ⟨hm, hu⟩⟩ := h
  · rw [pendingEscape_of_accumulating hm, stuff_of_ordinary hord, List.nil_append]
  · rw [pendingEscape_of_escaped hm]
    rcases unescape_eq_some.mp hu with ⟨rfl, rfl⟩ | ⟨rfl, rfl⟩ <;> rfl

/-- A store lengthens what the host can drain by the stored byte. -/
theorem drain_afterPayload (v : Byte) (s : State) : drain (afterPayload v s) (s.wp + 1) = drain s s.wp ++ [v] := by
  rw [drain, List.range_succ, List.map_append, List.map_singleton, afterPayload_buf, Memory.read_write_same]
  refine congrArg (· ++ [v]) (List.map_congr_left fun a ha => ?_)
  exact Memory.read_write_other _ _ (List.mem_range.mp ha).ne

/-- A DBYTE that answers DONE(n) has met END after `n` payload bytes (R112). -/
theorem DbyteCase.of_done {b : Byte} {s t : State} {n : Nat} (h : DbyteCase b s t) (hr : t.rsp = s.rsp ++ [.done n]) :
    s.mode = .accumulating ∧ b = Config.delimiter ∧ n = s.wp ∧ t.buf = s.buf := by
  rcases h with ⟨c, -, rfl⟩ | ⟨hm, hd, -, rfl⟩ | ⟨-, -, rfl⟩ | ⟨v, -, rfl⟩
  · simp at hr
  · exact ⟨hm, hd, by simpa using hr.symm, rfl⟩
  · simp at hr
  · simp at hr

/-- A DBYTE that answers OK has taken in an ESC, or stored a literal (R115, R116, R118, R119). -/
theorem DbyteCase.of_ok {b : Byte} {s t : State} (h : DbyteCase b s t) (hr : t.rsp = s.rsp ++ [.ok]) :
    (s.mode = .accumulating ∧ b = Config.escape ∧ t = { s with mode := .escaped }.reply .ok) ∨
      ∃ v, storesLiteral b s v ∧ t = afterPayload v s := by
  rcases h with ⟨c, -, rfl⟩ | ⟨-, -, -, rfl⟩ | hesc | hstore
  · simp at hr
  · simp at hr
  · exact .inl hesc
  · exact .inr hstore

/-- The first DBYTE of a run that goes on. -/
theorem transcript_dbyte_cons_cases {b : Byte} {bs : List Byte} {s t : State} {rs : List Result}
    (h : transcript (expandDfeed (b :: bs)) s = some (t, rs)) :
    ∃ u r rs', DbyteCase b s.accept u ∧ u.rsp = [r] ∧ transcript (expandDfeed bs) u = some (t, rs') ∧ rs = r :: rs' := by
  rw [expandDfeed, List.map_cons, transcript] at h
  split at h
  · next u hu =>
    obtain ⟨⟨t', rs'⟩, hrest, heq⟩ := Option.map_eq_some_iff.mp h
    have hc : DbyteCase b s.accept u := dbyte_cases hu
    obtain ⟨-, -, -, -, -, r, hr⟩ := hc.frame
    have hr : u.rsp = [r] := hr
    cases heq
    exact ⟨u, r, rs', hc, hr, hrest, by rw [hr]; rfl⟩
  · cases h
  · cases h

/-- A run without results has no DBYTE. -/
theorem eq_nil_of_transcript_nil {bs : List Byte} {s t : State} (h : transcript (expandDfeed bs) s = some (t, [])) :
    bs = [] ∧ t = s := by
  rcases bs with _ | ⟨b, bs⟩
  · cases h
    exact ⟨rfl, rfl⟩
  · obtain ⟨u, r, rs', -, -, -, hnil⟩ := transcript_dbyte_cons_cases h
    cases hnil

/-- A run of OK and then DONE(n), from any state: with an ESC taken in before, the bytes are the frame of the payload that it
added to what was accumulated. -/
theorem frame_of_accepted {bs : List Byte} {s t : State} {k n : Nat}
    (h : transcript (expandDfeed bs) s = some (t, List.replicate k .ok ++ [.done n])) :
    ∃ m, pendingEscape s ++ bs = frame m ∧ drain t n = drain s s.wp ++ m := by
  induction bs generalizing s k with
  | nil =>
    have hnil : [] = List.replicate k Result.ok ++ [.done n] := (Prod.mk.inj (Option.some.inj h)).2
    simp at hnil
  | cons b bs ih =>
    obtain ⟨u, r, rs, hc, hr, hrest, hrs⟩ := transcript_dbyte_cons_cases h
    cases k with
    | zero =>
      obtain ⟨rfl, rfl⟩ := List.cons.inj hrs
      obtain ⟨rfl, rfl⟩ := eq_nil_of_transcript_nil hrest
      obtain ⟨hm, rfl, rfl, hbuf⟩ := hc.of_done hr
      refine ⟨[], ?_, ?_⟩
      · rw [pendingEscape_of_accumulating (s := s) hm]
        rfl
      · rw [drain, hbuf, List.append_nil]
        rfl
    | succ k =>
      obtain ⟨rfl, rfl⟩ := List.cons.inj hrs
      obtain ⟨m, hframe, hdrain⟩ := ih hrest
      rcases hc.of_ok hr with ⟨hm, rfl, rfl⟩ | ⟨v, hv, rfl⟩
      · refine ⟨m, ?_, hdrain⟩
        rw [pendingEscape_of_accumulating (s := s) hm, ← hframe]
        rfl
      · refine ⟨v :: m, ?_, ?_⟩
        · rw [frame, stuffSeq_cons, hv.stuff_eq, List.append_assoc, List.append_assoc, ← frame, ← hframe]
          rfl
        · rw [hdrain, afterPayload_wp, drain_afterPayload, List.append_assoc]
          rfl

/-- Settles O58: from the reset `mode` and `wp` no ESC is taken in and nothing is accumulated. -/
theorem decoderAcceptsOnlyFrames : Obligations.DecoderAcceptsOnlyFrames := by
  intro r d d' k n hm hw h
  obtain ⟨m, hframe, hdrain⟩ := frame_of_accepted h
  rw [pendingEscape_of_accumulating hm, List.nil_append] at hframe
  have hdrained : drain d' n = m := by rw [hdrain, hw]; rfl
  rw [hdrained, hframe]

end Sys2Proof.Machine
end

section
/-! PROOFS. A line taken token by token as its bytes fed by DBYTE (R64, R127): a step feeds the first token and leaves the rest
pending, and feeding is indifferent to the outputs and the pending events it begins with. -/

namespace Sys2Proof.Machine

/-- Feeding bytes reads neither the outputs nor the pending events (R30), as one DBYTE does not. -/
theorem dfeed_listed (bs : List Byte) (s : State) (l : List Result) (d : Option Byte) (h : List HostEvent) :
    dfeed bs { s with rsp := l, bufRdata := d, host := h } = mapNext (State.listed l d h) (dfeed bs s.accept) := by
  induction bs generalizing s l d h with
  | nil => simp [mapNext, State.listed, State.accept]
  | cons b bs ih =>
    rw [dfeed_cons, dbyte_listed, dfeed_cons]
    rcases dbyte b s.accept with t | e | r
    · have hlisted : dfeed bs (State.listed l d h t) = mapNext (State.listed (l ++ t.rsp) d h) (dfeed bs t.accept) :=
        ih t (l ++ t.rsp) d h
      have hself : dfeed bs t = mapNext (State.listed t.rsp t.bufRdata t.host) (dfeed bs t.accept) :=
        ih t t.rsp t.bufRdata t.host
      rw [mapNext, andThen_next, andThen_next, andThen_next, hlisted, hself]
      cases dfeed bs t.accept <;> simp [mapNext, State.listed]
    · rfl
    · rfl

theorem dfeed_append (bs cs : List Byte) (s : State) : dfeed (bs ++ cs) s = andThen (dfeed bs s) (dfeed cs) := by
  induction bs generalizing s with
  | nil => rfl
  | cons b bs ih =>
    rw [List.cons_append, dfeed_cons, dfeed_cons]
    cases dbyte b s with
    | next t => exact ih t
    | fault e | refused r => rfl

/-- The only bytes that hold no token to read are none, and a lone ESC (R64). -/
theorem eq_escape_of_decodeToken_error {b : Byte} {bs : List Byte} {e : DecodeReject}
    (h : decodeToken (b :: bs) = .error e) : b = Config.escape ∧ bs = [] ∧ e = .incompleteEscape := by
  by_cases hd : b = Config.delimiter
  · rw [hd, decodeToken_delimiter] at h
    cases h
  · by_cases he : b = Config.escape
    · subst he
      rcases bs with _ | ⟨x, bs⟩
      · cases h
        exact ⟨rfl, rfl, rfl⟩
      · rw [decodeToken_escape] at h
        cases h
    · rw [decodeToken_literal ⟨hd, he⟩] at h
      cases h

/-- What a step takes of a line that has a byte: it feeds some bytes from the head and leaves the rest pending. -/
theorem runLine_feeds (b : Byte) (bs : List Byte) (s : State) : ∃ fed left, fed ≠ [] ∧ b :: bs = fed ++ left ∧
    runLine (b :: bs) s = dfeed fed { s.accept with host := pushLine left s.host } := by
  rcases hd : decodeToken (b :: bs) with e | ⟨i, left⟩
  · obtain ⟨rfl, rfl, rfl⟩ := eq_escape_of_decodeToken_error hd
    exact ⟨[Config.escape], [], List.cons_ne_nil _ _, rfl, (dfeed_singleton _ s.accept).symm⟩
  · obtain ⟨-, token, henc, hsplit⟩ := tokenIsExactlyTheBytesItTook _ _ _ hd
    refine ⟨token, left, ?_, hsplit, (runLine_of_token hd s).trans (exec_wire henc _)⟩
    rintro rfl
    cases i <;> cases henc

theorem runResults_succ {k : Nat} {s t : State} (h : step s = .next t) :
    runResults (k + 1) s = (runResults k t).map fun p => (p.1, t.rsp ++ p.2) := by
  simp [runResults, h]

theorem step_line {s : State} (hv : s.variant = .singleEnded) (bytes : List Byte) :
    step { s with host := [.line bytes] } = runLine bytes { s with host := [] } :=
  step_of_event (s := { s with host := [.line bytes] }) hv rfl

/-- Feeding bytes from the cleared outputs, with other events pending. -/
theorem dfeed_withHost {bs : List Byte} {s t : State} (ht : dfeed bs s.accept = .next t) (h : List HostEvent) :
    dfeed bs { s.accept with host := h } = .next { t with host := h } := by
  have hrdata : t.bufRdata = none := by
    refine dfeed_keeps (P := fun u => u.bufRdata = none) (fun b u v hc hu => ?_) ht rfl
    obtain ⟨-, -, -, -, hkept, -⟩ := hc.frame
    exact hkept.trans hu
  refine (dfeed_listed bs s [] none h).trans ?_
  rw [ht, mapNext, andThen_next, State.listed, ← hrdata]
  rfl

/-- The steps of a line pending give the results and the state of feeding its bytes. -/
theorem runResults_line (bytes : List Byte) {s : State} (hi : s.Inv) (hh : s.host = []) :
    ∃ k t u, runResults k { s with host := pushLine bytes [] } = some (t, u.rsp) ∧
      dfeed bytes s.accept = .next u ∧ t.accept = u.accept := by
  match bytes with
  | [] =>
    have hidle : ({ s with host := [] } : State).accept = s.accept := by rw [← hh]
    exact ⟨0, _, s.accept, rfl, rfl, hidle⟩
  | b :: bs =>
    have ⟨_, _, _, hvariant⟩ := hi
    obtain ⟨fed, left, hne, hsplit, hline⟩ := runLine_feeds b bs { s with host := [] }
    have hshorter : left.length < (b :: bs).length := by
      rw [hsplit, List.length_append]
      exact Nat.lt_add_of_pos_left (List.length_pos_iff.mpr hne)
    obtain ⟨v, hv, hvi⟩ := dfeed_total (bs := fed) (s := s.accept) hi
    have hstep : step { s with host := pushLine (b :: bs) [] } = .next { v with host := pushLine left [] } :=
      (step_line hvariant _).trans (hline.trans (dfeed_withHost hv _))
    have ⟨⟨_, _, hvh⟩, _⟩ := dfeed_frame hv
    obtain ⟨k, t, u, hrun, hu, htu⟩ := runResults_line left hvi (hvh.trans hh)
    have ⟨⟨_, _, (huh : u.host = v.host)⟩, _⟩ := dfeed_frame hu
    refine ⟨k + 1, t, State.listed v.rsp v.bufRdata v.host u, ?_, ?_, ?_⟩
    · rw [runResults_succ hstep, hrun]
      rfl
    · rw [hsplit, dfeed_append, hv, andThen_next]
      exact (dfeed_listed left v v.rsp v.bufRdata v.host).trans (by rw [hu]; rfl)
    · rw [htu, State.listed, ← huh]
      rfl
termination_by bytes.length
decreasing_by exact hshorter

/-- Settles O60: the steps of the line feed its bytes, and feeding them is their DBYTEs; a line without a byte is one step. -/
theorem lineByTokensIsLineByBytes : Obligations.LineByTokensIsLineByBytes := by
  intro bytes s hi hh
  cases bytes with
  | nil =>
    obtain ⟨-, -, -, hvariant⟩ := hi
    have hidle : step { s with host := [.line []] } = .next { s.accept with host := [] } :=
      step_line hvariant []
    exact ⟨1, { s.accept with host := [] }, s, [], runResults_succ hidle, rfl, by rw [← hh]; rfl⟩
  | cons b bs =>
    obtain ⟨k, t, u, hrun, hfeed, htu⟩ := runResults_line (b :: bs) hi hh
    obtain ⟨w, rs, htr, hw⟩ := dfeed_eq_transcript (b :: bs) (s := s.accept) hi.1 rfl
    cases hfeed.symm.trans (hw [])
    exact ⟨k, t, w, rs, hrun, (transcript_cons_accept _ _ s).symm.trans htr, htu⟩

end Sys2Proof.Machine
end

section
/-! PROOFS. The decoder's errors (R143 to R150): a DBYTE answers a cause exactly when the cause's condition holds, and every
cause is entered in one way. After them, the idle instance (R163). -/

namespace Sys2Proof.Machine

/-- A DBYTE that meets a cause's condition takes that error: each condition is that of some rows (R111, R113, R114, R117, R120,
R121), so the conditions exclude each other. -/
theorem dbyte_of_raises {b : Byte} {s : State} {c : Cause} (h : raises b s c) :
    dbyte b s = .next (raiseDecodeError c s) := by
  cases c with
  | malformedEscape =>
    obtain ⟨hm, hd, hx⟩ := h
    exact dbyte_malformed hm hd hx
  | prematureEnd =>
    obtain ⟨rfl, ⟨hm, hw⟩ | hm⟩ := h
    · exact dbyte_delimiter_of_zero hm hw
    · exact dbyte_delimiter_of_escaped hm
  | capacity =>
    obtain ⟨hfull, ⟨hm, hb⟩ | ⟨hm, hx⟩⟩ := h
    · rw [dbyte_ordinary hm hb, acceptPayload_of_full hfull]
    · obtain ⟨lit, hu⟩ := Option.ne_none_iff_exists'.mp (unescape_eq_none.not_left.mpr hx)
      rw [dbyte_escapeCode hm hu, acceptPayload_of_full hfull]
  | faultReentry => exact dbyte_of_faulted h b

/-- A DBYTE that answers an error has met the cause's condition and entered the error (R150). -/
theorem DbyteCase.of_err {b : Byte} {s t : State} {c : Cause} (h : DbyteCase b s t) (hr : t.rsp = s.rsp ++ [.err c]) :
    raises b s c ∧ t = raiseDecodeError c s := by
  rcases h with ⟨c', hc, rfl⟩ | ⟨-, -, -, rfl⟩ | ⟨-, -, rfl⟩ | ⟨v, -, rfl⟩
  · obtain rfl : c' = c := by simpa using hr
    exact ⟨hc, rfl⟩
  · simp at hr
  · simp at hr
  · simp at hr

/-- A DBYTE answers a cause exactly when its condition holds (R143, R145 to R147), `wp` within the buffer or not. -/
theorem execDbyte_err_iff {b : Byte} {s t : State} (h : exec (.dbyte b) s = .next t) (c : Cause) :
    t.rsp = [.err c] ↔ raises b s c := by
  constructor
  · intro hr
    exact ((dbyte_cases h).of_err hr).1
  · intro hc
    cases (dbyte_of_raises (s := s.accept) hc).symm.trans h
    rfl

/-- Settles O31: the one way in which a DBYTE answers an error. -/
theorem decodeErrorEntryResets : Obligations.DecodeErrorEntryResets :=
  fun _ _ _ _ h hr => ((dbyte_cases h).of_err hr).2

/-- Settles O32: each clause is its cause's condition, and the last one is the entry of O31. -/
theorem eachDecodeCauseExactlyWhen : Obligations.EachDecodeCauseExactlyWhen := by
  intro b s t _ h
  refine ⟨?malformed, execDbyte_err_iff h .prematureEnd, execDbyte_err_iff h .capacity, execDbyte_err_iff h .faultReentry,
    fun c hr => ?resets⟩
  case malformed => rw [execDbyte_err_iff h, raises, escapeCode, not_or]
  case resets =>
    rw [decodeErrorEntryResets b s t c h hr]
    exact ⟨rfl, rfl⟩

/-- A step with no event pending only clears the outputs. -/
theorem step_of_idle {s : State} (hv : s.variant = .singleEnded) (hh : s.host = []) : step s = .next s.accept := by
  simp only [step, takeEvent, hv, hh]

/-- Settles O51: the idle step. -/
theorem idleFramerKeepsItsState : Obligations.IdleFramerKeepsItsState :=
  fun _ hv hh => step_of_idle hv hh

end Sys2Proof.Machine
end

section
/-! PROOFS. Every operation ends with its results (R76, R189), and hardware reset between and during operations (R172). -/

namespace Sys2Proof.Machine

/-! ## The results at the end of an operation -/

/-- Feeding bytes goes on and lists one result for each of them (R127). -/
theorem dfeed_lists_one_result_each (bs : List Byte) {s : State} (hw : s.wp ≤ s.cap) :
    ∃ t, dfeed bs s = .next t ∧ t.rsp.length = s.rsp.length + bs.length := by
  induction bs generalizing s with
  | nil => exact ⟨s, rfl, rfl⟩
  | cons b bs ih =>
    obtain ⟨t, ht, hc⟩ := dbyte_total (b := b) hw
    obtain ⟨-, -, -, -, -, r, hr⟩ := hc.frame
    obtain ⟨u, hu, hlen⟩ := ih (hc.wp_le hw)
    refine ⟨u, by rw [dfeed_cons, ht, andThen_next, hu], ?_⟩
    rw [hlen, hr, List.length_append, List.length_singleton, List.length_cons]
    omega

/-- A command of the port that is not reserved goes on and answers one result (R76). -/
theorem exec_port_answers_one_result {i : Instr} {c : PortCommand} {s : State} (henc : encode i = .port c)
    (hw : s.wp ≤ s.cap) (h5 : i ≠ .reserved5) (h6 : i ≠ .reserved6) (h7 : i ≠ .reserved7) :
    ∃ t r, exec i s = .next t ∧ t.rsp = [r] := by
  cases i with
  | reset | len => exact ⟨_, _, rfl, rfl⟩
  | dbyte b =>
    obtain ⟨t, ht, hc⟩ := execDbyte_total b hw
    obtain ⟨-, -, -, -, -, r, hr⟩ := hc.frame
    exact ⟨t, r, ht, hr⟩
  | ebyte b =>
    obtain ⟨t, ht⟩ := execEbyte_total b s
    rcases execEbyte_result ht with hr | hr <;> exact ⟨t, _, ht, hr⟩
  | eframe m =>
    obtain ⟨t, ht⟩ := execEframe_total m s
    rcases execEframe_result ht with ⟨n, -, -, hr⟩ | hr <;> exact ⟨t, _, ht, hr⟩
  | reserved5 => exact absurd rfl h5
  | reserved6 => exact absurd rfl h6
  | reserved7 => exact absurd rfl h7
  | wireEnd | wireEscEnd | wireEscEsc | wireLiteral v | wireEscInvalid x => cases henc

/-- Settles O45: a command answers its one result, and a token feeds its bytes, each with its own. -/
theorem everyOperationEndsWithItsResults : Obligations.EveryOperationEndsWithItsResults := by
  intro i s hw h5 h6 h7
  cases henc : encode i with
  | port c =>
    obtain ⟨t, r, ht, hr⟩ := exec_port_answers_one_result henc hw h5 h6 h7
    exact ⟨t, ht, hr ▸ rfl⟩
  | wire bytes =>
    obtain ⟨t, ht, hlen⟩ := dfeed_lists_one_result_each bytes (s := s.accept) hw
    exact ⟨t, (exec_wire henc s).trans ht, hlen.trans (Nat.zero_add _)⟩

/-! ## Hardware reset -/

/-- The bytes below CAP that an abandoned operation could have written (R172). -/
theorem mem_abandonedBytes_iff {op : BitVec 3} {s : State} {a : Nat} (ha : a < s.cap) :
    a ∈ abandonedBytes op s ↔ op = 2 ∧ a = s.wp ∨ op = 3 ∧ (a = s.wp ∨ a = s.wp + 1) ∨ op = 4 := by
  have hrow2 : op = 2 ↔ op.toNat = 2 := BitVec.toNat_inj.symm
  have hrow3 : op = 3 ↔ op.toNat = 3 := BitVec.toNat_inj.symm
  have hrow4 : op = 4 ↔ op.toNat = 4 := BitVec.toNat_inj.symm
  rw [hrow2, hrow3, hrow4, abandonedBytes]
  split
  · next h => simp [h]
  · next h => simp [h]
  · next h => simp [h, ha]
  · next h2 h3 h4 =>
    refine iff_of_false List.not_mem_nil ?_
    rintro (⟨h, -⟩ | ⟨h, -⟩ | h)
    exacts [h2 h, h3 h, h4 h]

theorem abandonCommand_of_lt {c : PortCommand} (h : c.op.toNat < 5) (s : State) :
    abandonCommand c s = .next (hardwareReset (s.unspecify (abandonedBytes c.op s))) :=
  if_neg (Nat.not_le.mpr h)

theorem hardwareReset_buf (s : State) : (hardwareReset s).buf = s.buf := rfl

/-- Settles O53: the step serves the reset; one during an operation first leaves the operation's bytes unspecified. -/
theorem hardwareResetAbandonsTheOperation : Obligations.HardwareResetAbandonsTheOperation := by
  intro s rest hv
  refine ⟨fun hh => step_of_event hv hh, fun c hh hop => ?during⟩
  case during =>
    refine ⟨_, (step_of_event hv hh).trans (abandonCommand_of_lt hop { s with host := rest }), rfl, fun a => ?_⟩
    rw [hardwareReset_buf, State.unspecify_buf, unspecifyBytes_read]
    exact if_congr (and_comm.trans (and_congr_right mem_abandonedBytes_iff)) rfl rfl

end Sys2Proof.Machine
end

section
/-! PROOFS. Construction and its refusal (R80, U3), and the two control operations as equations (R82, R84). -/

namespace Sys2Proof.Machine

/-! ## Construction -/

/-- A fresh instance is already as `do_reset` leaves it (R27, R28). -/
theorem fresh_doReset (cap : Nat) : (State.fresh cap).doReset = State.fresh cap := rfl

theorem construct_singleEnded (cap : Nat) : construct cap .singleEnded = .next (State.fresh cap) :=
  congrArg Host.Outcome.next (fresh_doReset cap)

theorem construct_doubleEnded (cap : Nat) : construct cap .doubleEnded = .refused .doubleEndedVariant := rfl

/-- No byte has been stored yet, so every index of BUF reads its power-on value (R28, U4). -/
theorem fresh_buf_read (cap a : Nat) : (State.fresh cap).buf.read a = Config.powerOnByte a := rfl

/-- Settles O1: construction gives the fresh instance of the capacity, and `State.reset` is the one of capacity 8. -/
theorem constructionBindsAndResets : Obligations.ConstructionBindsAndResets := by
  refine ⟨fun cap => ⟨?singleEnded, construct_doubleEnded cap⟩, ?resetInstance⟩
  case singleEnded =>
    obtain ⟨-, hwf, -, hvariant⟩ := fresh_inv cap
    exact ⟨State.fresh cap, construct_singleEnded cap, rfl, rfl, rfl, hvariant, hwf, fresh_buf_read cap⟩
  case resetInstance => exact construct_singleEnded Config.resetCapacity

/-- Settles O7: the variant is tested before any event is taken. -/
theorem doubleEndedHasNoStep : Obligations.DoubleEndedHasNoStep := by
  intro s hv
  rw [step, hv]

/-! ## RESET and LEN -/

theorem exec_reset (s : State) : exec .reset s = .next (afterReset s) := rfl

/-- What RESET writes does not depend on what it finds (R82). -/
theorem afterReset_afterReset (s : State) : afterReset (afterReset s) = afterReset s := rfl

/-- Settles O17: RESET answers `afterReset`, which is idempotent. -/
theorem resetOperationResetsInEveryState : Obligations.ResetOperationResetsInEveryState := by
  refine fun s => ⟨exec_reset s, fun t ht => ?again⟩
  case again =>
    cases (exec_reset s).symm.trans ht
    exact (exec_reset (afterReset s)).trans (congrArg Host.Outcome.next (afterReset_afterReset s))

theorem exec_len (s : State) : exec .len s = .next { s with rsp := [.val s.wp], bufRdata := none } := rfl

/-- Settles O18: LEN only replies, and `accept` and `reply` write the outputs alone. -/
theorem lenAnswersWpAndChangesNothing : Obligations.LenAnswersWpAndChangesNothing := exec_len

end Sys2Proof.Machine
end
